-- ==== Sys2Proof/Word.lean ====
section
/-! DEFINITION. The word types of the machine (spec 00_scope R4, R5): what the spec treats as bits is a bit
vector, a register number is a number below 16. -/
namespace Sys2Proof

/-- One byte: a general register, a timer, a memory cell (00_scope R4, `XLEN` = 8). -/
abbrev Byte := BitVec 8

/-- Sixteen bits: `I`, `PC`, a stack slot, an instruction word (00_scope R4, `ALEN` = 16; 30_encoding R60). -/
abbrev Word := BitVec 16

/-- The number of a general register, 0 to 15 (10_state R10). -/
abbrev Reg := Fin 16

/-- The number of a key, 0 to 15 (10_state R22). -/
abbrev Key := Fin 16

/-- `VF`, the register that doubles as the flag (10_state R11). -/
abbrev Reg.vf : Reg := 15

end Sys2Proof
end

