-- ==== Sys2Proof/Syntax.lean ====
section
/-! DEFINITION. The instructions: one constructor per row of spec/opcode_table.json (30_encoding R64), the last one
for the catch-all row, the ignored words (R66). Fields are those of R61. -/
namespace Sys2Proof

/-- An instruction. The hexadecimal pattern in each docstring is its normative name (30_encoding R68). -/
inductive Instr where
  /-- `00E0` CLS (44_display_keypad R130). -/
  | cls
  /-- `00EE` RET (41_control_transfer R91). -/
  | ret
  /-- `1nnn` JP nnn (R92). -/
  | jp (nnn : BitVec 12)
  /-- `2nnn` CALL nnn (R93). -/
  | call (nnn : BitVec 12)
  /-- `3xkk` SE Vx, kk (R94). -/
  | seVxKk (x : Reg) (kk : Byte)
  /-- `4xkk` SNE Vx, kk (R95). -/
  | sneVxKk (x : Reg) (kk : Byte)
  /-- `5xy0` SE Vx, Vy (R96). -/
  | seVxVy (x y : Reg)
  /-- `6xkk` LD Vx, kk (42_load_arith_logic R100). -/
  | ldVxKk (x : Reg) (kk : Byte)
  /-- `7xkk` ADD Vx, kk (R101). -/
  | addVxKk (x : Reg) (kk : Byte)
  /-- `8xy0` LD Vx, Vy (R102). -/
  | ldVxVy (x y : Reg)
  /-- `8xy1` OR Vx, Vy (R103). -/
  | orVxVy (x y : Reg)
  /-- `8xy2` AND Vx, Vy (R104). -/
  | andVxVy (x y : Reg)
  /-- `8xy3` XOR Vx, Vy (R105). -/
  | xorVxVy (x y : Reg)
  /-- `8xy4` ADD Vx, Vy (R106). -/
  | addVxVy (x y : Reg)
  /-- `8xy5` SUB Vx, Vy (R107). -/
  | subVxVy (x y : Reg)
  /-- `8xy6` SHR Vx (R108); `y` is present in the encoding and not used. -/
  | shrVx (x y : Reg)
  /-- `8xy7` SUBN Vx, Vy (R109). -/
  | subnVxVy (x y : Reg)
  /-- `8xyE` SHL Vx (R110); `y` is present in the encoding and not used. -/
  | shlVx (x y : Reg)
  /-- `9xy0` SNE Vx, Vy (41_control_transfer R97). -/
  | sneVxVy (x y : Reg)
  /-- `Annn` LD I, nnn (43_index_memory R120). -/
  | ldINnn (nnn : BitVec 12)
  /-- `Bnnn` JP V0, nnn (41_control_transfer R98). -/
  | jpV0Nnn (nnn : BitVec 12)
  /-- `Cxkk` RND Vx, kk (42_load_arith_logic R111). -/
  | rndVxKk (x : Reg) (kk : Byte)
  /-- `Dxyn` DRW Vx, Vy, n (44_display_keypad R131). -/
  | drwVxVyN (x y : Reg) (n : BitVec 4)
  /-- `Ex9E` SKP Vx (R132). -/
  | skpVx (x : Reg)
  /-- `ExA1` SKNP Vx (R133). -/
  | sknpVx (x : Reg)
  /-- `Fx07` LD Vx, DT (45_timer_access R141). -/
  | ldVxDt (x : Reg)
  /-- `Fx0A` LD Vx, K (44_display_keypad R134). -/
  | ldVxK (x : Reg)
  /-- `Fx15` LD DT, Vx (45_timer_access R142). -/
  | ldDtVx (x : Reg)
  /-- `Fx18` LD ST, Vx (R143). -/
  | ldStVx (x : Reg)
  /-- `Fx1E` ADD I, Vx (43_index_memory R121). -/
  | addIVx (x : Reg)
  /-- `Fx29` LD F, Vx (R122). -/
  | ldFVx (x : Reg)
  /-- `Fx33` LD B, Vx (R123). -/
  | ldBVx (x : Reg)
  /-- `Fx55` LD [I], Vx (R124). -/
  | ldMemVx (x : Reg)
  /-- `Fx65` LD Vx, [I] (R125). -/
  | ldVxMem (x : Reg)
  /-- Any word that matches no pattern (30_encoding R66, 40_execution_cycle R86), with the word itself. -/
  | ignored (w : Word)
  deriving DecidableEq, Repr

end Sys2Proof
end

