-- ==== Sys2Proof/WellFormed.lean ====
section
/-! DEFINITION. The pattern table of 30_encoding R64 and the one well-formedness check it calls for: an `ignored`
word is a word that matches none of the 34 patterns (R65, R66). Every other constructor's fields have exactly the
widths of R61, so their types say all there is to check. -/
namespace Sys2Proof

/-- One row of the table of 30_encoding R64: the word `w` selects the row exactly when `w &&& mask = value`. -/
structure Row where
  number : Nat
  mask : Word
  value : Word
  deriving DecidableEq, Repr

/-- The word `w` selects the row (30_encoding R64). -/
def Row.selects (r : Row) (w : Word) : Bool := w &&& r.mask == r.value

/-- Rows 1 to 19 of 30_encoding R64. -/
def rowsLow : List Row := [
  ⟨1, 0xFFFF, 0x00E0⟩, ⟨2, 0xFFFF, 0x00EE⟩, ⟨3, 0xF000, 0x1000⟩, ⟨4, 0xF000, 0x2000⟩, ⟨5, 0xF000, 0x3000⟩,
  ⟨6, 0xF000, 0x4000⟩, ⟨7, 0xF00F, 0x5000⟩, ⟨8, 0xF000, 0x6000⟩, ⟨9, 0xF000, 0x7000⟩, ⟨10, 0xF00F, 0x8000⟩,
  ⟨11, 0xF00F, 0x8001⟩, ⟨12, 0xF00F, 0x8002⟩, ⟨13, 0xF00F, 0x8003⟩, ⟨14, 0xF00F, 0x8004⟩, ⟨15, 0xF00F, 0x8005⟩,
  ⟨16, 0xF00F, 0x8006⟩, ⟨17, 0xF00F, 0x8007⟩, ⟨18, 0xF00F, 0x800E⟩, ⟨19, 0xF00F, 0x9000⟩]

/-- Rows 20 to 34 of 30_encoding R64. -/
def rowsHigh : List Row := [
  ⟨20, 0xF000, 0xA000⟩, ⟨21, 0xF000, 0xB000⟩, ⟨22, 0xF000, 0xC000⟩, ⟨23, 0xF000, 0xD000⟩, ⟨24, 0xF0FF, 0xE09E⟩,
  ⟨25, 0xF0FF, 0xE0A1⟩, ⟨26, 0xF0FF, 0xF007⟩, ⟨27, 0xF0FF, 0xF00A⟩, ⟨28, 0xF0FF, 0xF015⟩, ⟨29, 0xF0FF, 0xF018⟩,
  ⟨30, 0xF0FF, 0xF01E⟩, ⟨31, 0xF0FF, 0xF029⟩, ⟨32, 0xF0FF, 0xF033⟩, ⟨33, 0xF0FF, 0xF055⟩, ⟨34, 0xF0FF, 0xF065⟩]

/-- The whole table of 30_encoding R64. -/
def rows : List Row := rowsLow ++ rowsHigh

/-- The number of an instruction's row in 30_encoding R64; the ignored words have none. -/
def Instr.rowNumber : Instr → Option Nat
  | .cls => some 1
  | .ret => some 2
  | .jp _ => some 3
  | .call _ => some 4
  | .seVxKk _ _ => some 5
  | .sneVxKk _ _ => some 6
  | .seVxVy _ _ => some 7
  | .ldVxKk _ _ => some 8
  | .addVxKk _ _ => some 9
  | .ldVxVy _ _ => some 10
  | .orVxVy _ _ => some 11
  | .andVxVy _ _ => some 12
  | .xorVxVy _ _ => some 13
  | .addVxVy _ _ => some 14
  | .subVxVy _ _ => some 15
  | .shrVx _ _ => some 16
  | .subnVxVy _ _ => some 17
  | .shlVx _ _ => some 18
  | .sneVxVy _ _ => some 19
  | .ldINnn _ => some 20
  | .jpV0Nnn _ => some 21
  | .rndVxKk _ _ => some 22
  | .drwVxVyN _ _ _ => some 23
  | .skpVx _ => some 24
  | .sknpVx _ => some 25
  | .ldVxDt _ => some 26
  | .ldVxK _ => some 27
  | .ldDtVx _ => some 28
  | .ldStVx _ => some 29
  | .addIVx _ => some 30
  | .ldFVx _ => some 31
  | .ldBVx _ => some 32
  | .ldMemVx _ => some 33
  | .ldVxMem _ => some 34
  | .ignored _ => none

/-- The check: an `ignored` word matches no row of the table (30_encoding R66). -/
def Instr.wellFormed : Instr → Bool
  | .ignored w => rows.all fun r => !r.selects w
  | _ => true

end Sys2Proof
end

