-- ==== Sys2Proof/Decode.lean ====
section
/-! DEFINITION. Decoder and encoder (30_encoding R60 to R66). The decoder is total on words: a word that matches no
pattern is an ignored word, an instruction of its own. On bytes it refuses, by name, only a list that is too short
to hold a word. -/
namespace Sys2Proof

/-- Why a list of bytes is no instruction: it holds fewer than the two bytes of a word (30_encoding R60). -/
inductive DecodeError where
  | truncated
  deriving DecidableEq, Repr

/-- `fam` = `w[15:12]` (30_encoding R61). -/
def famOf (w : Word) : BitVec 4 := w.extractLsb' 12 4

/-- The second hexadecimal digit, `w[11:8]`. -/
def digitX (w : Word) : BitVec 4 := w.extractLsb' 8 4

/-- The third hexadecimal digit, `w[7:4]`. -/
def digitY (w : Word) : BitVec 4 := w.extractLsb' 4 4

/-- The fourth hexadecimal digit, `n` = `w[3:0]`. -/
def digitN (w : Word) : BitVec 4 := w.extractLsb' 0 4

/-- The register a 4-bit field names (30_encoding R63). -/
def regOf (d : BitVec 4) : Reg := ⟨d.toNat, d.isLt⟩

/-- The 4-bit field that names a register. -/
def fieldOf (r : Reg) : BitVec 4 := BitVec.ofNat 4 r.val

/-- Family 0: `00E0`, `00EE`, all sixteen bits fixed; the rest is ignored (30_encoding R65, R66; C4, log 13). -/
def decodeFam0 (x y n : BitVec 4) : Instr :=
  if x = 0 ∧ y = 0xE ∧ n = 0x0 then .cls
  else if x = 0 ∧ y = 0xE ∧ n = 0xE then .ret
  else .ignored (0x0#4 ++ x ++ y ++ n)

/-- Family 8: the sub-code is the low digit (30_encoding R64 rows 10 to 18). -/
def decodeFam8 (x y n : BitVec 4) : Instr :=
  let rx := regOf x
  let ry := regOf y
  if n = 0x0 then .ldVxVy rx ry
  else if n = 0x1 then .orVxVy rx ry
  else if n = 0x2 then .andVxVy rx ry
  else if n = 0x3 then .xorVxVy rx ry
  else if n = 0x4 then .addVxVy rx ry
  else if n = 0x5 then .subVxVy rx ry
  else if n = 0x6 then .shrVx rx ry
  else if n = 0x7 then .subnVxVy rx ry
  else if n = 0xE then .shlVx rx ry
  else .ignored (0x8#4 ++ x ++ y ++ n)

/-- Family E: the sub-code is the low byte (30_encoding R64 rows 24, 25). -/
def decodeFamE (x : BitVec 4) (kk : Byte) : Instr :=
  if kk = 0x9E then .skpVx (regOf x)
  else if kk = 0xA1 then .sknpVx (regOf x)
  else .ignored (0xE#4 ++ x ++ kk)

/-- Family F: the sub-code is the low byte (30_encoding R64 rows 26 to 34). -/
def decodeFamF (x : BitVec 4) (kk : Byte) : Instr :=
  let rx := regOf x
  if kk = 0x07 then .ldVxDt rx
  else if kk = 0x0A then .ldVxK rx
  else if kk = 0x15 then .ldDtVx rx
  else if kk = 0x18 then .ldStVx rx
  else if kk = 0x1E then .addIVx rx
  else if kk = 0x29 then .ldFVx rx
  else if kk = 0x33 then .ldBVx rx
  else if kk = 0x55 then .ldMemVx rx
  else if kk = 0x65 then .ldVxMem rx
  else .ignored (0xF#4 ++ x ++ kk)

/-- The instruction of the word whose four hexadecimal digits are `fam`, `x`, `y`, `n` (30_encoding R64, R65; every
literal digit of a pattern is significant, C4, log 13). -/
def decodeDigits (fam x y n : BitVec 4) : Instr :=
  let kk : Byte := y ++ n
  let nnn : BitVec 12 := x ++ y ++ n
  match fam.toNat with
  | 0x0 => decodeFam0 x y n
  | 0x1 => .jp nnn
  | 0x2 => .call nnn
  | 0x3 => .seVxKk (regOf x) kk
  | 0x4 => .sneVxKk (regOf x) kk
  | 0x5 => if n = 0x0 then .seVxVy (regOf x) (regOf y) else .ignored (0x5#4 ++ x ++ y ++ n)
  | 0x6 => .ldVxKk (regOf x) kk
  | 0x7 => .addVxKk (regOf x) kk
  | 0x8 => decodeFam8 x y n
  | 0x9 => if n = 0x0 then .sneVxVy (regOf x) (regOf y) else .ignored (0x9#4 ++ x ++ y ++ n)
  | 0xA => .ldINnn nnn
  | 0xB => .jpV0Nnn nnn
  | 0xC => .rndVxKk (regOf x) kk
  | 0xD => .drwVxVyN (regOf x) (regOf y) n
  | 0xE => decodeFamE x kk
  | _ => decodeFamF x kk

/-- `Decode(w)` (40_execution_cycle R84): reads nothing but the word, cannot fault. -/
def decodeWord (w : Word) : Instr := decodeDigits (famOf w) (digitX w) (digitY w) (digitN w)

/-- Two bytes as the word they hold, the byte at the lower address high (20_memory R43). -/
def wordOfBytes (hi lo : Byte) : Word := hi ++ lo

/-- The high byte of a word, stored at the lower address (30_encoding R60). -/
def hiByte (w : Word) : Byte := w.extractLsb' 8 8

/-- The low byte of a word, stored at the higher address. -/
def loByte (w : Word) : Byte := w.extractLsb' 0 8

/-- Decode the head of a list of bytes: the instruction and the bytes after its word. -/
def decode : List Byte → Except DecodeError (Instr × List Byte)
  | hi :: lo :: rest => .ok (decodeWord (wordOfBytes hi lo), rest)
  | [_] => .error .truncated
  | [] => .error .truncated

/-- Format `NNN` (30_encoding R62). -/
def fmtNNN (fam : BitVec 4) (nnn : BitVec 12) : Word := fam ++ nnn

/-- Format `XKK` (30_encoding R62). -/
def fmtXKK (fam : BitVec 4) (x : Reg) (kk : Byte) : Word := fam ++ fieldOf x ++ kk

/-- Format `XY` and, with a free low digit, `XYN` (30_encoding R62). -/
def fmtXYN (fam : BitVec 4) (x y : Reg) (n : BitVec 4) : Word := fam ++ fieldOf x ++ fieldOf y ++ n

/-- Format `X`: the low byte is the sub-code (30_encoding R62). -/
def fmtX (fam : BitVec 4) (x : Reg) (code : Byte) : Word := fam ++ fieldOf x ++ code

/-- The word of an instruction, by the patterns of 30_encoding R64. -/
def encode : Instr → Word
  | .cls => 0x00E0
  | .ret => 0x00EE
  | .jp nnn => fmtNNN 0x1 nnn
  | .call nnn => fmtNNN 0x2 nnn
  | .seVxKk x kk => fmtXKK 0x3 x kk
  | .sneVxKk x kk => fmtXKK 0x4 x kk
  | .seVxVy x y => fmtXYN 0x5 x y 0x0
  | .ldVxKk x kk => fmtXKK 0x6 x kk
  | .addVxKk x kk => fmtXKK 0x7 x kk
  | .ldVxVy x y => fmtXYN 0x8 x y 0x0
  | .orVxVy x y => fmtXYN 0x8 x y 0x1
  | .andVxVy x y => fmtXYN 0x8 x y 0x2
  | .xorVxVy x y => fmtXYN 0x8 x y 0x3
  | .addVxVy x y => fmtXYN 0x8 x y 0x4
  | .subVxVy x y => fmtXYN 0x8 x y 0x5
  | .shrVx x y => fmtXYN 0x8 x y 0x6
  | .subnVxVy x y => fmtXYN 0x8 x y 0x7
  | .shlVx x y => fmtXYN 0x8 x y 0xE
  | .sneVxVy x y => fmtXYN 0x9 x y 0x0
  | .ldINnn nnn => fmtNNN 0xA nnn
  | .jpV0Nnn nnn => fmtNNN 0xB nnn
  | .rndVxKk x kk => fmtXKK 0xC x kk
  | .drwVxVyN x y n => fmtXYN 0xD x y n
  | .skpVx x => fmtX 0xE x 0x9E
  | .sknpVx x => fmtX 0xE x 0xA1
  | .ldVxDt x => fmtX 0xF x 0x07
  | .ldVxK x => fmtX 0xF x 0x0A
  | .ldDtVx x => fmtX 0xF x 0x15
  | .ldStVx x => fmtX 0xF x 0x18
  | .addIVx x => fmtX 0xF x 0x1E
  | .ldFVx x => fmtX 0xF x 0x29
  | .ldBVx x => fmtX 0xF x 0x33
  | .ldMemVx x => fmtX 0xF x 0x55
  | .ldVxMem x => fmtX 0xF x 0x65
  | .ignored w => w

/-- The two bytes of an instruction in memory order (30_encoding R60). -/
def encodeBytes (i : Instr) : List Byte := [hiByte (encode i), loByte (encode i)]

/-- The instruction of a word numbered as spec/opcode_table.json numbers its bits, through the byte decoder: the bits
from `nbits` up are zero, the one 16-bit word is laid out high byte first (20_memory R43). -/
def decodeTableWord (nbits w : Nat) : Option Instr :=
  let word : Word := BitVec.ofNat 16 (w % 2 ^ nbits)
  match decode [hiByte word, loByte word] with
  | .ok (i, _) => some i
  | .error _ => none

end Sys2Proof
end

