-- ==== Sys2Proof/Config.lean ====
section
/-! DEFINITION. What is fixed for the machine: the parameters of 00_scope R4, the default font table of 10_state R20,
and the FREE VALUES: what the outside world does and the spec puts under no law. A free value is an opaque constant
applied to a counter of State: nothing in Lean can prove a value of it. -/
namespace Sys2Proof.Config

/-- `MEM_SIZE`: bytes of memory; valid addresses are 0 to 4095 (00_scope R4). -/
abbrev memSize : Nat := 4096

/-- `LOAD_BASE`: reset value of `PC` and first byte of the program (00_scope R4). -/
abbrev loadBase : Nat := 0x200

/-- `PROG_MAX`: the longest program that fits (00_scope R4). -/
abbrev progMax : Nat := 3584

/-- `FONT_LEN`: 16 glyphs of 5 bytes (00_scope R4). -/
abbrev fontLen : Nat := 80

/-- `STACK_DEPTH`: return addresses the call stack holds (00_scope R4). -/
abbrev stackDepth : Nat := 16

/-- `DISP_W`: display columns (00_scope R4). -/
abbrev dispW : Nat := 64

/-- `DISP_H`: display rows (00_scope R4). -/
abbrev dispH : Nat := 32

/-- The default of the parameter `FONT_TABLE`: the table of 10_state R20, glyphs 0 to F in order, five bytes each.
PRESUMED (log 8): the spec takes the bytes from general knowledge, not from its source. Unsafe. -/
def fontTable : Vector Byte fontLen := #v[
  0xF0, 0x90, 0x90, 0x90, 0xF0, 0x20, 0x60, 0x20, 0x20, 0x70, 0xF0, 0x10, 0xF0, 0x80, 0xF0, 0xF0, 0x10, 0xF0, 0x10, 0xF0,
  0x90, 0x90, 0xF0, 0x10, 0x10, 0xF0, 0x80, 0xF0, 0x10, 0xF0, 0xF0, 0x80, 0xF0, 0x90, 0xF0, 0xF0, 0x10, 0x20, 0x40, 0x40,
  0xF0, 0x90, 0xF0, 0x90, 0xF0, 0xF0, 0x90, 0xF0, 0x10, 0xF0, 0xF0, 0x90, 0xF0, 0x90, 0x90, 0xE0, 0x90, 0xE0, 0x90, 0xE0,
  0xF0, 0x80, 0x80, 0x80, 0xF0, 0xE0, 0x90, 0x90, 0x90, 0xE0, 0xF0, 0x80, 0xF0, 0x80, 0xF0, 0xF0, 0x80, 0xF0, 0x80, 0x80]

/-- The default of the parameter `HALT_CHECK` (00_scope R4, 40_execution_cycle R82). Log 7. -/
def haltCheck : Bool := true

/-- Free value: the number of `TickDT` steps before the step numbered by the counter (60_exceptions R165). Log 3. -/
opaque ticksDT : Nat → Nat

/-- Free value: the number of `TickST` steps before that step (60_exceptions R165). Log 3. -/
opaque ticksST : Nat → Nat

/-- Free value: the key flags as the environment has set them at that step (10_state R22). Log 3, log 26. -/
opaque keys : Nat → Vector Bool 16

/-- Free value: the random byte drawn in that step (10_state R25, 42_load_arith_logic R111). Log 4. -/
opaque randomByte : Nat → Byte

/-- Free value: the input surface's answer for a key index above 15 in that step (10_state R22). Log 5. -/
opaque keyAnswer : Nat → Bool

/-- Free value: the key delivered to a waiting `Fx0A` in that step, or none yet (44_display_keypad R134). Log 6. -/
opaque delivery : Nat → Option Key

end Sys2Proof.Config
end

