-- ==== Sys2Proof/Machine/State.lean ====
section
/-! DEFINITION. The state of the machine (10_state), all of it plain data, and the state after reset (10_state R29,
70_reset_and_hazards R180). INVENTORY.md, heading State, lists each field with the rule that names it. -/
namespace Sys2Proof.Machine

/-- The kind of a memory access, reported with a range failure (60_exceptions R151). -/
inductive AccessKind where
  | fetch
  | read
  | write
  deriving DecidableEq, Repr

/-- The cause and the information of a fatal condition (60_exceptions R150 to R154). Names and information are the
spec's own choice D6 (log 18). -/
inductive FatalCause where
  /-- `MEM_RANGE`, code 1: an access at the address, which is above 4095 (R151). -/
  | memRange (addr : Nat) (kind : AccessKind)
  /-- `STACK_OVERFLOW`, code 2: the `2nnn` at the address ran with `SP = 16` (R152). -/
  | stackOverflow (callAddr : Word)
  /-- `STACK_UNDERFLOW`, code 3: the `00EE` at the address ran with `SP = 0` (R153). -/
  | stackUnderflow (retAddr : Word)
  /-- `LOAD_FAILURE`, code 4: the program could not be loaded (R154). -/
  | loadFailure
  deriving DecidableEq, Repr

/-- `STATUS`, the run state of the interpreter context (10_state R23). -/
inductive Status where
  /-- The next step is a fetch at `PC`. -/
  | running
  /-- An `Fx0A` naming register `x` waits for a key. -/
  | waitKey (x : Reg)
  /-- The halt check stopped the loop; the run is over, normally. -/
  | halted
  /-- A fatal condition stopped the loop; the run is over, abnormally. -/
  | fatal (cause : FatalCause)
  deriving DecidableEq, Repr

/-- The pixel grid, `PIX[px][py]`, column first as the spec indexes it (10_state R21). -/
abbrev Display := Vector (Vector Bool 32) 64

/-- The key flags, `KEY[0..15]` (10_state R22). -/
abbrev Keys := Vector Bool 16

/-- What the outside world does in one step: everything 70_reset_and_hazards R184 and R187 let it vary. -/
structure Input where
  /-- How many `TickDT` steps the timer schedule takes first (60_exceptions R161, R165). -/
  ticksDT : Nat
  /-- How many `TickST` steps it takes first (R162, R165). -/
  ticksST : Nat
  /-- The key flags as the environment has set them (10_state R22). -/
  keys : Keys
  /-- `Random8()` in this step (10_state R25). -/
  random : Byte
  /-- The answer of `KeyPressed(k)` for a `k` above 15 in this step (10_state R22). -/
  keyAnswer : Bool
  /-- The key delivered to a waiting `Fx0A` in this step, if one is (44_display_keypad R134). -/
  delivery : Option Key
  deriving DecidableEq, Repr

/-- The input under no law at all: each part a free value of Config applied to the counter. Log 3. -/
def Input.free (n : Nat) : Input where
  ticksDT := Config.ticksDT n
  ticksST := Config.ticksST n
  keys := Config.keys n
  random := Config.randomByte n
  keyAnswer := Config.keyAnswer n
  delivery := Config.delivery n

/-- The input in which nothing happens: no tick, no key pressed, no delivery. -/
def Input.quiet : Input where
  ticksDT := 0
  ticksST := 0
  keys := Vector.replicate 16 false
  random := 0
  keyAnswer := false
  delivery := none

/-- The whole state of the machine. The last three fields are the model's own (log 3, log 12); `haltCheck` and `font`
are the parameters that 00_scope R4 marks OPEN (log 7, log 8). -/
structure State where
  /-- `V0` to `VF` (10_state R10). -/
  v : Vector Byte 16
  /-- `I`, the address register (R13). -/
  i : Word
  /-- `PC` (R14). -/
  pc : Word
  /-- `DT` (R16). -/
  dt : Byte
  /-- `ST` (R17). -/
  st : Byte
  /-- `SP`, the next free slot, 0 to 16 (R19). -/
  sp : Fin 17
  /-- `STACK[0..15]` (R18). -/
  stack : Vector Word 16
  /-- `MEM[0..4095]` (R20): the bytes that differ from `Memory.background`, by rising address. -/
  mem : List Host.Cell
  /-- `PIX` (R21). -/
  pix : Display
  /-- `KEY` (R22). -/
  keys : Keys
  /-- `STATUS` (R23). -/
  status : Status
  /-- `PREV`, the previous-instruction latch (R24). -/
  prev : Option Word
  /-- How many sound events have been emitted (R30; log 22). -/
  soundEvents : Nat
  /-- The parameter `HALT_CHECK` (40_execution_cycle R82; log 7). -/
  haltCheck : Bool
  /-- The parameter `FONT_TABLE` (10_state R20; log 8). -/
  font : Vector Byte 80
  /-- The model's own: what the outside world did in the step being taken. -/
  input : Input
  /-- The model's own: the outside world's coming inputs, where they are listed. -/
  script : List Input
  /-- The model's own: the counter the free inputs are applied to. -/
  fresh : Nat
  deriving DecidableEq, Repr

/-- A reason for which a step would end the machine outside its own state. There is none, so the type is empty: every
error of this machine is a fatal condition, and a fatal condition is a value of `STATUS` after which the timer
schedule still steps (60_exceptions R150, R164). Nobody raises it; safe (log 1). -/
inductive Fault where
  deriving DecidableEq, Repr

/-- A reason for which the model gives no meaning. -/
inductive Refusal where
  /-- The instruction of that mnemonic has no meaning in the model yet. Raised by no arm of `exec`: every instruction
  has its meaning. Safe. -/
  | notModelled (mnemonic : String)
  deriving DecidableEq, Repr

/-- What a step answers. -/
abbrev Result := Host.Outcome State Fault Refusal

/-- The state after reset for given parameters (10_state R29). `PC` and the memory content are the source's; `V`, `I`,
`DT`, `ST`, `SP`, `STATUS`, `PREV` and `PIX` are the spec's own choice (D5, D13; log 9); the stack slots (log 10), the
key flags (log 11) and the model's own fields (log 12) are DESIGN CHOICE. Unsafe. -/
def State.resetWith (font : Vector Byte 80) (haltCheck : Bool) : State where
  v := Vector.replicate 16 0
  i := 0
  pc := 0x200
  dt := 0
  st := 0
  sp := 0
  stack := Vector.replicate 16 0
  mem := []
  pix := Vector.replicate 64 (Vector.replicate 32 false)
  keys := Vector.replicate 16 false
  status := .running
  prev := none
  soundEvents := 0
  haltCheck := haltCheck
  font := font
  input := Input.quiet
  script := []
  fresh := 0

/-- The state after reset, with the spec's defaults of both parameters (00_scope R4; log 7, log 8). -/
def State.reset : State := State.resetWith Config.fontTable Config.haltCheck

end Sys2Proof.Machine
end

