-- ==== Sys2Proof/Machine/Ops.lean ====
section
/-! DEFINITION. The named operations over registers, memory, stack, display, keys and timers, the primitives of
00_scope R6; taking a fatal condition (60_exceptions R150); the outside world's part of a step. -/
namespace Sys2Proof.Machine

/-! ### General registers (10_state R10, R11) -/

/-- `V[r]`. -/
def State.reg (s : State) (r : Reg) : Byte := s.v.get r

/-- `V[r] <- b`. -/
def State.setReg (r : Reg) (b : Byte) (s : State) : State := { s with v := s.v.set r.val b r.isLt }

/-- `V[x] <- b`, then `V[F] <- f`: the result is written first and the flag last (10_state R12). -/
def State.setRegFlag (x : Reg) (b f : Byte) (s : State) : State := (s.setReg x b).setReg Reg.vf f

/-! ### Program counter (10_state R14, R15) -/

/-- `pc <- target`. -/
def State.setPc (target : Word) (s : State) : State := { s with pc := target }

/-- `skip` of 00_scope R6: a further 2 on top of the advance already made. -/
def State.skip (s : State) : State := s.setPc (s.pc + 2)

/-- Skip when the condition holds, else change nothing. -/
def State.skipIf (c : Bool) (s : State) : State := if c then s.skip else s

/-! ### Memory (10_state R20, 20_memory) -/

/-- What an address that nothing has written reads as: the content after reset, the font table in the first 80 bytes
and zero elsewhere (10_state R20, R29; log 20). -/
def Memory.background (font : Vector Byte 80) (a : Nat) : Byte := if h : a < 80 then font[a] else 0

/-- The byte at an address. -/
def Memory.get (font : Vector Byte 80) : List Host.Cell → Nat → Byte
  | [], a => Memory.background font a
  | (b, u) :: rest, a => if a = b then u else Memory.get font rest a

/-- A cell in front of a memory, left out where the address reads as that byte anyway. -/
def Memory.cons (font : Vector Byte 80) (a : Nat) (u : Byte) (m : List Host.Cell) : List Host.Cell :=
  if u = Memory.background font a then m else (a, u) :: m

/-- Write one byte, keeping the canonical form. -/
def Memory.put (font : Vector Byte 80) (a : Nat) (u : Byte) : List Host.Cell → List Host.Cell
  | [] => Memory.cons font a u []
  | (b, w) :: rest =>
    if a < b then Memory.cons font a u ((b, w) :: rest)
    else if a = b then Memory.cons font a u rest
    else (b, w) :: Memory.put font a u rest

/-- The canonical form: addresses strictly rising, all of them addresses of the machine, and no entry equal to what
the unlisted address reads as. -/
abbrev Memory.wf (font : Vector Byte 80) (m : List Host.Cell) : Prop :=
  m.Pairwise (fun c d => c.1 < d.1) ∧ ∀ c ∈ m, c.1 < Config.memSize ∧ c.2 ≠ Memory.background font c.1

/-- `MEM[a]`, for any natural number; it is the machine's only for `a` below 4096. -/
def State.peek (s : State) (a : Nat) : Byte := Memory.get s.font s.mem a

/-- `MEM[a] <- u`, used under the range check. -/
def State.poke (a : Nat) (u : Byte) (s : State) : State := { s with mem := Memory.put s.font a u s.mem }

/-- Store bytes at ascending addresses from `a` (20_memory R46), used under the range check. -/
def State.pokeBytes (a : Nat) (us : List Byte) (s : State) : State :=
  match us with
  | [] => s
  | u :: rest => State.pokeBytes (a + 1) rest (s.poke a u)

/-- `MemRead(addr, 1)`, for an access of the given kind (20_memory R41). -/
def memRead (kind : AccessKind) (addr : Nat) (s : State) : Except FatalCause Byte :=
  if addr < Config.memSize then .ok (s.peek addr) else .error (.memRange addr kind)

/-- `MemWrite(addr, 1, v)` (20_memory R42). -/
def memWrite (addr : Nat) (u : Byte) (s : State) : Except FatalCause State :=
  if addr < Config.memSize then .ok (s.poke addr u) else .error (.memRange addr .write)

/-- `MemRead(addr, 2)`, used by fetch only: the byte at `addr` first and high (20_memory R43). -/
def memReadWord (addr : Nat) (s : State) : Except FatalCause Word :=
  match memRead .fetch addr s with
  | .error c => .error c
  | .ok hi =>
    match memRead .fetch (addr + 1) s with
    | .error c => .error c
    | .ok lo => .ok (wordOfBytes hi lo)

/-- Every address of an instruction's accesses, `len` bytes from `a`, is in range; no access at all is in range
wherever `a` is (43_index_memory R126, 44_display_keypad R131). The sum is not wrapped (20_memory R51). -/
def inRange (a len : Nat) : Bool := len == 0 || decide (a + len ≤ Config.memSize)

/-- The cause an instruction reports when `inRange` fails: the lowest address out of range (43_index_memory R126). -/
def rangeCause (kind : AccessKind) (a : Nat) : FatalCause := .memRange (max a Config.memSize) kind

/-! ### Fatal conditions (60_exceptions R150) -/

/-- The numeric code of a cause (60_exceptions R151 to R154). -/
def FatalCause.code : FatalCause → Nat
  | .memRange _ _ => 1
  | .stackOverflow _ => 2
  | .stackUnderflow _ => 3
  | .loadFailure => 4

/-- `raise Fatal(cause, info)`: `STATUS <- FATAL(cause, info)` and nothing else. There is no way back (60_exceptions
R158): the machine has no return from it to model. -/
def State.raiseFatal (c : FatalCause) (s : State) : State := { s with status := .fatal c }

/-! ### Call stack (10_state R18, R19) -/

/-- `STACK[SP] <- PC ; SP <- SP + 1`, when a slot is free. -/
def State.push (s : State) : Option State :=
  if h : s.sp.val < Config.stackDepth then
    some { s with stack := s.stack.set s.sp.val s.pc h, sp := ⟨s.sp.val + 1, Nat.succ_lt_succ h⟩ }
  else none

/-- `SP <- SP - 1 ; pc <- STACK[SP]`, when a slot is in use. -/
def State.pop (s : State) : Option State :=
  match s.sp with
  | ⟨0, _⟩ => none
  | ⟨n + 1, h⟩ => some { s with sp := ⟨n, Nat.lt_of_succ_lt h⟩, pc := s.stack[n]'(Nat.lt_of_succ_lt_succ h) }

/-! ### Display (10_state R21) -/

/-- `PIX[px][py]` is lit. -/
def State.pixel (s : State) (px : Fin 64) (py : Fin 32) : Bool := (s.pix.get px).get py

/-- `DispClear()`: afterwards every pixel is unlit. -/
def Display.blank : Display := Vector.replicate 64 (Vector.replicate 32 false)

/-- The pixel at column `a mod 64`, row `b mod 32`. -/
def Display.at (d : Display) (a b : Nat) : Bool :=
  (d.get ⟨a % 64, Nat.mod_lt a (by decide)⟩).get ⟨b % 32, Nat.mod_lt b (by decide)⟩

/-- The grid with the pixel at column `a mod 64`, row `b mod 32` toggled. -/
def Display.flip (d : Display) (a b : Nat) : Display :=
  let column := d.get ⟨a % 64, Nat.mod_lt a (by decide)⟩
  d.set (a % 64) (column.set (b % 32) (!(d.at a b)) (Nat.mod_lt b (by decide))) (Nat.mod_lt a (by decide))

/-- `DispToggle(a, b)` on the grid and the collision found so far: the toggle answers whether the pixel was lit. -/
def Display.toggle (a b : Nat) (acc : Display × Bool) : Display × Bool :=
  (acc.1.flip a b, acc.2 || acc.1.at a b)

/-- One sprite row at column `cx`, row `cy`: the columns 0 to 7 whose bit is 1, column 0 being bit 7
(44_display_keypad R131; log 15). -/
def Display.drawRow (cx cy : Nat) (b : Byte) (acc : Display × Bool) : Display × Bool :=
  (List.range 8).foldl (fun acc col => if b.getLsbD (7 - col) then Display.toggle (cx + col) cy acc else acc) acc

/-- The sprite rows from row `cy` down. -/
def Display.drawRows (cx : Nat) : Nat → List Byte → Display × Bool → Display × Bool
  | _, [], acc => acc
  | cy, b :: bs, acc => Display.drawRows cx (cy + 1) bs (Display.drawRow cx cy b acc)

/-! ### Keys (10_state R22) -/

/-- `KeyPressed(k)`: the key's flag for `k` in 0 to 15; above 15 the free answer of the step's input (log 5). -/
def State.keyPressed (k : Byte) (s : State) : Bool :=
  if h : k.toNat < 16 then s.keys.get ⟨k.toNat, h⟩ else s.input.keyAnswer

/-- A step of the environment, enabled only while an `Fx0A` waits: it delivers the key the input brings, or nothing
(44_display_keypad R134; log 6). -/
def State.deliverKey (s : State) : State :=
  match s.status, s.input.delivery with
  | .waitKey x, some k => { s.setReg x (BitVec.ofNat 8 k.val) with status := .running }
  | _, _ => s

/-! ### Timers (10_state R16, R17; 60_exceptions R160 to R165) -/

/-- A timer one tick later: it saturates at 0. -/
def tickDown (t : Byte) : Byte := if t = 0 then t else t - 1

/-- `TickDT` (60_exceptions R161). -/
def State.tickDT (s : State) : State := { s with dt := tickDown s.dt }

/-- `TickST`: one sound event for each decrement (60_exceptions R162). -/
def State.tickST (s : State) : State :=
  { s with st := tickDown s.st, soundEvents := s.soundEvents + if s.st = 0 then 0 else 1 }

/-- A timer `n` ticks later. -/
def ticksDown : Nat → Byte → Byte
  | 0, t => t
  | n + 1, t => ticksDown n (tickDown t)

/-- The sound events of `n` ticks of `ST` from the value `t`. -/
def soundOf : Nat → Byte → Nat
  | 0, _ => 0
  | n + 1, t => (if t = 0 then 0 else 1) + soundOf n (tickDown t)

/-! ### The outside world (60_exceptions R163 to R165, 70_reset_and_hazards R187) -/

/-- The input of the coming step: the one the state lists, else a free one (log 3). -/
def State.nextInput (s : State) : Input :=
  match s.script with
  | inp :: _ => inp
  | [] => Input.free s.fresh

/-- The outside world's steps before the interpreter's: the input's ticks happen, the key flags are those it gives, and
the input is kept for the draws of the instruction. The status does not matter (60_exceptions R164). -/
def State.takeInput (s : State) : State :=
  let inp := s.nextInput
  { s with
    dt := ticksDown inp.ticksDT s.dt
    st := ticksDown inp.ticksST s.st
    soundEvents := s.soundEvents + soundOf inp.ticksST s.st
    keys := inp.keys
    input := inp
    script := s.script.tail
    fresh := s.fresh + 1 }

end Sys2Proof.Machine
end

