-- ==== Sys2Proof/Machine/Operands.lean ====
section
/-! DEFINITION. The operand forms (30_encoding R63) and the results the instructions compute from them
(42_load_arith_logic R112, 43_index_memory R126). Register numbers and the immediate `kk` are used as they are. -/
namespace Sys2Proof.Machine

/-- A 12-bit address as a 16-bit value, high bits zero (30_encoding R63). -/
def addrOf (nnn : BitVec 12) : Word := nnn.zeroExtend 16

/-- A byte as a 16-bit value, high bits zero. -/
def wide (b : Byte) : Word := b.zeroExtend 16

/-- `(a + b) mod 256`. -/
def addByte (a b : Byte) : Byte := a + b

/-- `(a - b) mod 256`. -/
def subByte (a b : Byte) : Byte := a - b

/-- `a >> 1`, bit 7 of the result zero. -/
def shrByte (a : Byte) : Byte := a >>> 1

/-- `(a << 1) mod 256`. -/
def shlByte (a : Byte) : Byte := a <<< 1

/-- The three decimal digits, most significant first (43_index_memory R123). -/
def bcdDigits (b : Byte) : List Byte :=
  [BitVec.ofNat 8 (b.toNat / 100), BitVec.ofNat 8 (b.toNat / 10 % 10), BitVec.ofNat 8 (b.toNat % 10)]

/-- `V0` to `Vx`, in order (43_index_memory R124). -/
def State.regsTo (x : Reg) (s : State) : List Byte := s.v.toList.take (x.val + 1)

/-- `V[i] <- MEM[a + i]` for `i` in 0 to `x`, the other registers unchanged (43_index_memory R125). -/
def State.loadRegs (x : Reg) (a : Nat) (s : State) : State :=
  { s with v := Vector.ofFn fun r : Reg => if r ≤ x then s.peek (a + r.val) else s.reg r }

/-- The bytes `MEM[a]` to `MEM[a + n - 1]`. -/
def State.peekBytes (a n : Nat) (s : State) : List Byte := (List.range n).map fun k => s.peek (a + k)

end Sys2Proof.Machine
end

