-- ==== Sys2Proof/Machine/Flags.lean ====
section
/-! DEFINITION. The six values written to `VF` as a flag (10_state R11). A flag is always 0 or 1. -/
namespace Sys2Proof.Machine

/-- A flag as the byte `VF` takes. -/
def flagByte (b : Bool) : Byte := if b then 1 else 0

/-- `8xy4`: 1 when the sum is above 255 (42_load_arith_logic R106). -/
def carryFlag (a b : Byte) : Byte := flagByte (decide (a.toNat + b.toNat > 255))

/-- `8xy5` and, operands exchanged, `8xy7`: 1 when `a` is strictly greater than `b` (R107, R109). -/
def greaterFlag (a b : Byte) : Byte := flagByte (decide (a.toNat > b.toNat))

/-- `8xy6`: the bit shifted out, old bit 0 (R108). -/
def lowBitFlag (a : Byte) : Byte := flagByte (a.getLsbD 0)

/-- `8xyE`: the bit shifted out, old bit 7 (R110). -/
def highBitFlag (a : Byte) : Byte := flagByte (a.getLsbD 7)

end Sys2Proof.Machine
end

