-- ==== Sys2Proof/Machine/Arith.lean ====
section
/-! DEFINITION. Load, arithmetic, logic and random instructions (42_load_arith_logic). Operands are read before any
write; where there is a flag it is written last (10_state R12, C1). An instruction without a flag row leaves `VF`
alone unless `x` names it (D8, log 16). -/
namespace Sys2Proof.Machine

/-- `6xkk` LD Vx, kk (42_load_arith_logic R100). -/
def execLdVxKk (x : Reg) (kk : Byte) (s : State) : Result := .next (s.setReg x kk)

/-- `7xkk` ADD Vx, kk: no flag (42_load_arith_logic R101). -/
def execAddVxKk (x : Reg) (kk : Byte) (s : State) : Result := .next (s.setReg x (addByte (s.reg x) kk))

/-- `8xy0` LD Vx, Vy (42_load_arith_logic R102). -/
def execLdVxVy (x y : Reg) (s : State) : Result := .next (s.setReg x (s.reg y))

/-- `8xy1` OR Vx, Vy (42_load_arith_logic R103). -/
def execOrVxVy (x y : Reg) (s : State) : Result := .next (s.setReg x (s.reg x ||| s.reg y))

/-- `8xy2` AND Vx, Vy (42_load_arith_logic R104). -/
def execAndVxVy (x y : Reg) (s : State) : Result := .next (s.setReg x (s.reg x &&& s.reg y))

/-- `8xy3` XOR Vx, Vy (42_load_arith_logic R105). -/
def execXorVxVy (x y : Reg) (s : State) : Result := .next (s.setReg x (s.reg x ^^^ s.reg y))

/-- `8xy4` ADD Vx, Vy: `VF` the carry (42_load_arith_logic R106). -/
def execAddVxVy (x y : Reg) (s : State) : Result :=
  let a := s.reg x
  let b := s.reg y
  .next (s.setRegFlag x (addByte a b) (carryFlag a b))

/-- `8xy5` SUB Vx, Vy: `VF` is 1 when Vx was strictly greater (42_load_arith_logic R107). -/
def execSubVxVy (x y : Reg) (s : State) : Result :=
  let a := s.reg x
  let b := s.reg y
  .next (s.setRegFlag x (subByte a b) (greaterFlag a b))

/-- `8xy6` SHR Vx: `y` is not used (42_load_arith_logic R108; D8, log 16). -/
def execShrVx (x _y : Reg) (s : State) : Result :=
  let a := s.reg x
  .next (s.setRegFlag x (shrByte a) (lowBitFlag a))

/-- `8xy7` SUBN Vx, Vy: `VF` is 1 when Vy was strictly greater (42_load_arith_logic R109). -/
def execSubnVxVy (x y : Reg) (s : State) : Result :=
  let a := s.reg x
  let b := s.reg y
  .next (s.setRegFlag x (subByte b a) (greaterFlag b a))

/-- `8xyE` SHL Vx: `y` is not used (42_load_arith_logic R110; D8, log 16). -/
def execShlVx (x _y : Reg) (s : State) : Result :=
  let a := s.reg x
  .next (s.setRegFlag x (shlByte a) (highBitFlag a))

/-- `Cxkk` RND Vx, kk: the random byte is the free value of the step's input (42_load_arith_logic R111; log 4). -/
def execRndVxKk (x : Reg) (kk : Byte) (s : State) : Result := .next (s.setReg x (s.input.random &&& kk))

end Sys2Proof.Machine
end

