-- ==== Sys2Proof/Machine/Control.lean ====
section
/-! DEFINITION. Control transfer (41_control_transfer). In every meaning `s.pc` is the advanced value, the
instruction's address plus 2 (40_execution_cycle R83). -/
namespace Sys2Proof.Machine

/-- `00EE` RET (41_control_transfer R91; underflow 60_exceptions R153). -/
def execRet (s : State) : Result :=
  match s.pop with
  | some t => .next t
  | none => .next (s.raiseFatal (.stackUnderflow (s.pc - 2)))

/-- `1nnn` JP nnn (41_control_transfer R92). -/
def execJp (nnn : BitVec 12) (s : State) : Result := .next (s.setPc (addrOf nnn))

/-- `2nnn` CALL nnn (41_control_transfer R93; overflow 60_exceptions R152). -/
def execCall (nnn : BitVec 12) (s : State) : Result :=
  match s.push with
  | some t => .next (t.setPc (addrOf nnn))
  | none => .next (s.raiseFatal (.stackOverflow (s.pc - 2)))

/-- `3xkk` SE Vx, kk (41_control_transfer R94). -/
def execSeVxKk (x : Reg) (kk : Byte) (s : State) : Result := .next (s.skipIf (s.reg x == kk))

/-- `4xkk` SNE Vx, kk (41_control_transfer R95). -/
def execSneVxKk (x : Reg) (kk : Byte) (s : State) : Result := .next (s.skipIf (s.reg x != kk))

/-- `5xy0` SE Vx, Vy (41_control_transfer R96). -/
def execSeVxVy (x y : Reg) (s : State) : Result := .next (s.skipIf (s.reg x == s.reg y))

/-- `9xy0` SNE Vx, Vy (41_control_transfer R97). -/
def execSneVxVy (x y : Reg) (s : State) : Result := .next (s.skipIf (s.reg x != s.reg y))

/-- `Bnnn` JP V0, nnn: the sum is not masked (41_control_transfer R98; log 17). -/
def execJpV0Nnn (nnn : BitVec 12) (s : State) : Result := .next (s.setPc (addrOf nnn + wide (s.reg 0)))

end Sys2Proof.Machine
end

