-- ==== Sys2Proof/Machine/DisplayKeypad.lean ====
section
/-! DEFINITION. Display and keypad instructions (44_display_keypad). -/
namespace Sys2Proof.Machine

/-- `00E0` CLS (44_display_keypad R130). -/
def execCls (s : State) : Result := .next { s with pix := Display.blank }

/-- `Dxyn` DRW Vx, Vy, n: the coordinates are the old registers, `VF` is written last and always
(44_display_keypad R131). -/
def execDrwVxVyN (x y : Reg) (n : BitVec 4) (s : State) : Result :=
  if inRange s.i.toNat n.toNat then
    let cx := (s.reg x).toNat
    let cy := (s.reg y).toNat
    let drawn := Display.drawRows cx cy (s.peekBytes s.i.toNat n.toNat) (s.pix, false)
    .next ({ s with pix := drawn.1 }.setReg Reg.vf (flagByte drawn.2))
  else .next (s.raiseFatal (rangeCause .read s.i.toNat))

/-- `Ex9E` SKP Vx (44_display_keypad R132). -/
def execSkpVx (x : Reg) (s : State) : Result := .next (s.skipIf (s.keyPressed (s.reg x)))

/-- `ExA1` SKNP Vx (44_display_keypad R133). -/
def execSknpVx (x : Reg) (s : State) : Result := .next (s.skipIf (!s.keyPressed (s.reg x)))

/-- `Fx0A` LD Vx, K, the instruction's own step: the wait begins; the key comes in a later step of the environment
(44_display_keypad R134; `State.deliverKey`). -/
def execLdVxK (x : Reg) (s : State) : Result := .next { s with status := .waitKey x }

end Sys2Proof.Machine
end

