-- ==== Sys2Proof/Machine/Ignored.lean ====
section
/-! DEFINITION. The ignored words (40_execution_cycle R86). -/
namespace Sys2Proof.Machine

/-- An ignored word executes as a no-op: beyond the advance that every word makes, nothing happens. -/
def execIgnored (_w : Word) (s : State) : Result := .next s

end Sys2Proof.Machine
end

