-- ==== Sys2Proof/Machine/IndexMemory.lean ====
section
/-! DEFINITION. Address register and memory instructions (43_index_memory). Every address of an instruction is checked
before it changes anything, and no memory instruction changes `I` (43_index_memory R126; D6, D8). -/
namespace Sys2Proof.Machine

/-- `Annn` LD I, nnn (43_index_memory R120). -/
def execLdINnn (nnn : BitVec 12) (s : State) : Result := .next { s with i := addrOf nnn }

/-- `Fx1E` ADD I, Vx: modulo 65536, not masked to 12 bits, no flag (43_index_memory R121; log 17). -/
def execAddIVx (x : Reg) (s : State) : Result := .next { s with i := s.i + wide (s.reg x) }

/-- `Fx29` LD F, Vx: the whole byte times 5 (43_index_memory R122; log 17). -/
def execLdFVx (x : Reg) (s : State) : Result := .next { s with i := wide (s.reg x) * 5 }

/-- `Fx33` LD B, Vx (43_index_memory R123). -/
def execLdBVx (x : Reg) (s : State) : Result :=
  if inRange s.i.toNat 3 then .next (s.pokeBytes s.i.toNat (bcdDigits (s.reg x)))
  else .next (s.raiseFatal (rangeCause .write s.i.toNat))

/-- `Fx55` LD [I], Vx (43_index_memory R124). -/
def execLdMemVx (x : Reg) (s : State) : Result :=
  if inRange s.i.toNat (x.val + 1) then .next (s.pokeBytes s.i.toNat (s.regsTo x))
  else .next (s.raiseFatal (rangeCause .write s.i.toNat))

/-- `Fx65` LD Vx, [I] (43_index_memory R125). -/
def execLdVxMem (x : Reg) (s : State) : Result :=
  if inRange s.i.toNat (x.val + 1) then .next (s.loadRegs x s.i.toNat)
  else .next (s.raiseFatal (rangeCause .read s.i.toNat))

end Sys2Proof.Machine
end

