-- ==== Sys2Proof/Machine/TimerAccess.lean ====
section
/-! DEFINITION. Timer access instructions (45_timer_access). Which pattern copies which way is PRESUMED by the spec
from the family's convention (R140, D2; log 14). -/
namespace Sys2Proof.Machine

/-- `Fx07` LD Vx, DT (45_timer_access R141). -/
def execLdVxDt (x : Reg) (s : State) : Result := .next (s.setReg x s.dt)

/-- `Fx15` LD DT, Vx (45_timer_access R142). -/
def execLdDtVx (x : Reg) (s : State) : Result := .next { s with dt := s.reg x }

/-- `Fx18` LD ST, Vx: no sound event of its own (45_timer_access R143). -/
def execLdStVx (x : Reg) (s : State) : Result := .next { s with st := s.reg x }

end Sys2Proof.Machine
end

