-- ==== Sys2Proof/Machine/Cycle.lean ====
section
/-! DEFINITION. The execution cycle (40_execution_cycle): fetch, halt check, advance, decode, execute; one step of the
machine over all its agents (00_scope R9); program load and launch (70_reset_and_hazards R183, R184). -/
namespace Sys2Proof.Machine

/-- `IsHaltPair(p, w)`: both words are `1nnn` with one target (40_execution_cycle R82). -/
def isHaltPair (p : Option Word) (w : Word) : Bool :=
  match p with
  | none => false
  | some q => decide (famOf q = 1) && decide (famOf w = 1) && decide (q.extractLsb' 0 12 = w.extractLsb' 0 12)

/-- The halt check stops on the fetched word (40_execution_cycle R82). -/
def State.haltsOn (w : Word) (s : State) : Bool := isHaltPair s.prev w && s.haltCheck

/-- `PREV <- w`, then `pc <- PC + 2` (40_execution_cycle R82, R83). -/
def State.advance (w : Word) (s : State) : State := { s with prev := some w, pc := s.pc + 2 }

/-- One step of the interpreter context, for `STATUS = RUNNING` (40_execution_cycle R80). -/
def runCycle (s : State) : Result :=
  match memReadWord s.pc.toNat s with
  | .error c => .next (s.raiseFatal c)
  | .ok w =>
    if s.haltsOn w then .next { s with status := .halted }
    else exec (decodeWord w) (s.advance w)

/-- One step of the machine: the outside world's part, then the step the status allows (00_scope R9, 10_state R23;
log 2). In `HALTED` and `FATAL` only the outside world has steps (60_exceptions R164). -/
def nextStep (s : State) : Result :=
  let t := s.takeInput
  match t.status with
  | .running => runCycle t
  | .waitKey _ => .next t.deliverKey
  | .halted => .next t
  | .fatal _ => .next t

/-- Program load of the bytes `p` at `0x200` (70_reset_and_hazards R183); one that does not fit is a `LOAD_FAILURE`
and nothing is loaded (60_exceptions R154; D16, log 19). -/
def State.loadProgram (p : List Byte) (s : State) : State :=
  if p.length ≤ Config.progMax then s.pokeBytes Config.loadBase p else s.raiseFatal .loadFailure

/-- Launch with given parameters: reset, then program load from the source; `none` is a source that fails
(70_reset_and_hazards R184; 60_exceptions R154). -/
def launchWith (font : Vector Byte 80) (haltCheck : Bool) (source : Option (List Byte)) : State :=
  match source with
  | none => (State.resetWith font haltCheck).raiseFatal .loadFailure
  | some p => (State.resetWith font haltCheck).loadProgram p

/-- Launch with the spec's default parameters. -/
def launch (source : Option (List Byte)) : State := launchWith Config.fontTable Config.haltCheck source

/-- The state whose very next step fetches and executes the word: the word stands at `PC`, high byte first; the
interpreter context is running; no word precedes it, so that the halt check cannot take its place; a `PC` that cannot be
fetched from is put at the load base (log 19). -/
def State.placeWord (w : Word) (s : State) : State :=
  let a : Word := if s.pc.toNat + 1 < Config.memSize then s.pc else 0x200
  { s.pokeBytes a.toNat [hiByte w, loByte w] with pc := a, status := .running, prev := none }

end Sys2Proof.Machine
end

