-- ==== Sys2Proof/Machine/Step.lean ====
section
/-! DEFINITION. The host's step and the word placed at the fetch address. Both only call Machine/Cycle.lean. -/
namespace Sys2Proof.Machine

/-- One step of the machine. -/
def step (s : State) : Host.Outcome State Fault Refusal := nextStep s

/-- The state with the table's word where the next step fetches. -/
def State.withFetchWord (s : State) (nbits w : Nat) : State := s.placeWord (BitVec.ofNat 16 (w % 2 ^ nbits))

end Sys2Proof.Machine
end

