-- ==== Sys2Proof/Safety.lean ====
section
/-! DEFINITION. The terms the claims use: the parts of a state and what it means that a part is unchanged, the frame of
an instruction, the invariants of the machine, the ends of a run, the fairness premise. -/
namespace Sys2Proof.Machine

/-- A part of the state: one register, one byte of memory, one stack slot, one pixel, and so on. Together they are all
of `State`. -/
inductive Part where
  | reg (r : Reg)
  | addrI
  | pc
  | dt
  | st
  | sp
  | slot (j : Fin 16)
  | byte (a : Nat)
  | pixel (px : Fin 64) (py : Fin 32)
  | key (k : Key)
  | status
  | prev
  | sound
  | haltCheck
  | font
  | input
  | script
  | fresh
  deriving DecidableEq, Repr

/-- The part reads the same in both states; for memory, the read of the one byte. -/
def Part.same (s t : State) : Part → Prop
  | .reg r => t.reg r = s.reg r
  | .addrI => t.i = s.i
  | .pc => t.pc = s.pc
  | .dt => t.dt = s.dt
  | .st => t.st = s.st
  | .sp => t.sp = s.sp
  | .slot j => t.stack.get j = s.stack.get j
  | .byte a => t.peek a = s.peek a
  | .pixel px py => t.pixel px py = s.pixel px py
  | .key k => t.keys.get k = s.keys.get k
  | .status => t.status = s.status
  | .prev => t.prev = s.prev
  | .sound => t.soundEvents = s.soundEvents
  | .haltCheck => t.haltCheck = s.haltCheck
  | .font => t.font = s.font
  | .input => t.input = s.input
  | .script => t.script = s.script
  | .fresh => t.fresh = s.fresh

/-- From `s` to `t` every part is unchanged but those that `changed` names (40_execution_cycle R85: "an instruction
changes only what its rule says it writes"). -/
def Frame (changed : Part → Prop) (s t : State) : Prop := ∀ p, ¬ changed p → p.same s t

/-- The parts that the outside world's steps may change: the timers, the sound events, the keys, and the model's own
bookkeeping of inputs (10_state R26, 70_reset_and_hazards R187). -/
def Part.outside : Part → Prop
  | .dt => True
  | .st => True
  | .sound => True
  | .key _ => True
  | .input => True
  | .script => True
  | .fresh => True
  | _ => False

/-- Memory is in its canonical form. -/
def State.memWf (s : State) : Prop := Memory.wf s.font s.mem

/-- `PC` is at most `0x10FE`, and every return address on the stack is at most `0x1000` (10_state R15). -/
def State.pcBound (s : State) : Prop :=
  s.pc.toNat ≤ 0x10FE ∧ ∀ j : Fin 16, j.val < s.sp.val → (s.stack.get j).toNat ≤ 0x1000

/-- While an `Fx0A` waits, the latch `PREV` holds that `Fx0A`, with its register (10_state R23, R24). -/
def State.waitShape (s : State) : Prop := ∀ x, s.status = .waitKey x → s.prev = some (encode (.ldVxK x))

/-- The run is over (70_reset_and_hazards R186): normally in `HALTED`, abnormally in `FATAL`. -/
def State.ended (s : State) : Prop := s.status = .halted ∨ ∃ c, s.status = .fatal c

/-- The word that stands at `PC`, where one can be fetched (20_memory R43, R44). -/
def State.wordAtPc (s : State) : Word := wordOfBytes (s.peek s.pc.toNat) (s.peek (s.pc.toNat + 1))

/-- Weak fairness of the delay timer's schedule (60_exceptions R165): among the free inputs there is always a later
one with a `TickDT`. A premise for claims that need it; nothing in the model provides it. -/
def DelayTicksFair : Prop := ∀ n, ∃ m, n ≤ m ∧ 0 < Config.ticksDT m

/-- The sprite that `Dxyn` reads at `I` covers the pixel: some row below `n` and some column below 8 fall on it, each
coordinate wrapping on its own, and the sprite bit there is 1, bit 7 being column 0 (44_display_keypad R131). -/
def spriteCovers (s : State) (x y : Reg) (n : BitVec 4) (px : Fin 64) (py : Fin 32) : Prop :=
  ∃ row col, row < n.toNat ∧ col < 8 ∧ ((s.reg x).toNat + col) % 64 = px.val ∧ ((s.reg y).toNat + row) % 32 = py.val ∧
    (s.peek (s.i.toNat + row)).getLsbD (7 - col) = true

end Sys2Proof.Machine
end

