-- ==== Sys2Proof/Certificates/Slice0/Obligations.lean ====
section
/-! DEFINITION. The statements for the provers, made from the numbered rules of spec/. A clause that rests on a value
or a behaviour the spec marks as its own decision says so in its docstring. -/

open Sys2Proof Sys2Proof.Machine

/-! ### Encoding (30_encoding) -/

/-- Every well-formed instruction survives encoding and decoding, with every operand at every value (R61, R62, R64).
Which words are ignored is the spec's decision D1 (log 13); that the shifts keep their unused y is the model's choice
(log 28). -/
def Obligations.DecodeOfEncodeIsIdentity : Prop :=
  ∀ i : Instr, i.wellFormed = true → decodeWord (encode i) = i

/-- Every 16-bit word decodes to a well-formed instruction whose word it is: no bit is dropped (R61, R65, R66). Which
words are ignored is the spec's decision D1 (log 13); that the shifts keep their unused y is the model's choice (log
28). -/
def Obligations.EncodeOfDecodeIsIdentity : Prop :=
  ∀ w : Word, (decodeWord w).wellFormed = true ∧ encode (decodeWord w) = w

/-- The decoder selects row `k` exactly for the words that match row `k`'s mask and value; a word that matches none is
ignored. That every literal digit counts is the spec's decision D1 (conflict C4, log 13). -/
def Obligations.DecodeSelectsTheTableRow : Prop :=
  ∀ (w : Word) (k : Nat),
    (decodeWord w).rowNumber = some k ↔ ∃ r ∈ rows, r.number = k ∧ r.selects w = true

/-- "No two rows overlap" (R64). -/
def Obligations.TableRowsNeverOverlap : Prop :=
  ∀ (w : Word) (r q : Row), r ∈ rows → q ∈ rows → r.selects w = true → q.selects w = true → r = q

/-- Words written out from the spec's encodings decode to the instructions they stand for: at least one of each
instruction file (41 to 45), of the encoding families 0, 1, 3, 8, C, D, E and F, and one ignored word of family 5. That
`0x5121` is an ignored word is the spec's decision D1 (log 13). -/
def Obligations.DecodeReadsTheSpecsWords : Prop :=
  decodeWord 0x00E0 = .cls ∧ decodeWord 0x00EE = .ret ∧ decodeWord 0x1204 = .jp 0x204 ∧
  decodeWord 0x3100 = .seVxKk 1 0x00 ∧ decodeWord 0x8014 = .addVxVy 0 1 ∧ decodeWord 0xC10F = .rndVxKk 1 0x0F ∧
  decodeWord 0xF033 = .ldBVx 0 ∧ decodeWord 0xD121 = .drwVxVyN 1 2 1 ∧ decodeWord 0xE49E = .skpVx 4 ∧
  decodeWord 0xF307 = .ldVxDt 3 ∧ decodeWord 0x5121 = .ignored 0x5121

/-- The two bytes of an instruction, high byte first, decode to it and leave the bytes after it; a list of fewer than
two bytes is refused by name (R60). That a list of fewer than two bytes is refused by name is the model's choice (log
28). -/
def Obligations.BytesOfAnInstructionDecode : Prop :=
  (∀ (i : Instr) (rest : List Byte), i.wellFormed = true → decode (encodeBytes i ++ rest) = .ok (i, rest)) ∧
  (∀ bytes : List Byte, decode bytes = .error .truncated ↔ bytes.length < 2)

/-! ### Memory (20_memory) -/

/-- A byte read answers the byte in range and the fatal condition out of range; the address is never wrapped (20_memory
section 2; the kind in the cause is D6, log 18). -/
def Obligations.ByteReadIsRangeChecked : Prop :=
  ∀ (kind : AccessKind) (a : Nat) (s : State),
    (a ≤ 4095 → memRead kind a s = .ok (s.peek a)) ∧ (4095 < a → memRead kind a s = .error (.memRange a kind))

/-- A byte write in range changes that byte alone, is read back, and keeps the canonical form; out of range it is the
fatal condition and writes nothing. That the report carries the kind is the spec's decision D6 (log 18), and the
canonical form of memory is the model's own representation (log 20). -/
def Obligations.ByteWriteChangesOneByte : Prop :=
  ∀ (a : Nat) (u : Byte) (s : State),
    (a ≤ 4095 → s.memWf → ∃ t, memWrite a u s = .ok t ∧ t.peek a = u ∧ t.memWf ∧ Frame (fun p => p = .byte a) s t) ∧
    (4095 < a → memWrite a u s = .error (.memRange a .write))

/-- A word read is the two bytes, the one at the lower address high; out of range the lowest offending address is
reported, with the access kind `fetch` (20_memory section 2). That the report carries the kind is the spec's decision D6
(log 18). -/
def Obligations.WordReadIsBigEndian : Prop :=
  ∀ (a : Nat) (s : State),
    (a ≤ 4094 → ∃ w, memReadWord a s = .ok w ∧ w.toNat = 256 * (s.peek a).toNat + (s.peek (a + 1)).toNat) ∧
    (a = 4095 → memReadWord a s = .error (.memRange 4096 .fetch)) ∧
    (4096 ≤ a → memReadWord a s = .error (.memRange a .fetch))

/-! ### Invariants of every step -/

/-- Every step of the machine keeps memory in its canonical form, with every listed address below 4096. The canonical
form is the model's own representation (log 20). -/
def Obligations.StepKeepsMemoryCanonical : Prop :=
  ∀ s t : State, s.memWf → step s = .next t → t.memWf

/-- `PC` never passes `0x10FE` and no stacked return address passes `0x1000`: every step keeps it (10_state section 3,
which marks the bound as derived; that Bnnn is not masked is D7, log 17). That a stack slot is a copy of PC is D18
(log 23). -/
def Obligations.StepKeepsPcBound : Prop :=
  ∀ s t : State, s.pcBound → step s = .next t → t.pcBound

/-- While an `Fx0A` waits, `PREV` is that `Fx0A` with its register: every step keeps it. That STATUS is a register of
four values is the spec's decision D6 and D20 (log 1). -/
def Obligations.StepKeepsWaitShape : Prop :=
  ∀ s t : State, s.waitShape → step s = .next t → t.waitShape

/-- The three invariants hold after reset, for any parameters. The canonical form of memory is the model's own
representation (log 20). That STATUS is RUNNING and SP is 0 at reset is D5, PREV none D13 (log 9). -/
def Obligations.ResetMeetsTheInvariants : Prop :=
  ∀ (font : Vector Byte 80) (haltCheck : Bool),
    (State.resetWith font haltCheck).memWf ∧ (State.resetWith font haltCheck).pcBound ∧
      (State.resetWith font haltCheck).waitShape

/-- Every step answers a next state: an error of the machine is a `STATUS` (log 1), after which, as after the halt, the
timer schedule goes on by the spec's decisions D12 and D20 (log 2). Each step counts one input (log 3). That the parameters
never change is the model's choice: each is a field of State that no step writes (log 7, log 8). -/
def Obligations.EveryStepAnswersNext : Prop :=
  ∀ s : State, ∃ t, step s = .next t ∧ t.fresh = s.fresh + 1 ∧ t.font = s.font ∧ t.haltCheck = s.haltCheck

/-! ### Reset and launch (10_state section 11, 70_reset_and_hazards) -/

/-- The state after reset. `PC` and memory are the source's; every other value is the spec's own decision D5 or D13
(log 9), and the default font is a parameter (log 8), so the statement holds for every font. The default of HALT_CHECK
is a parameter too (log 7). -/
def Obligations.ResetStateIsTheSpecs : Prop :=
  ∀ (font : Vector Byte 80) (haltCheck : Bool), ∃ s, s = State.resetWith font haltCheck ∧
    s.pc = 0x200 ∧ (∀ a, (h : a < 80) → s.peek a = font[a]) ∧ (∀ a, 80 ≤ a → s.peek a = 0) ∧
    (∀ r, s.reg r = 0) ∧ s.i = 0 ∧ s.dt = 0 ∧ s.st = 0 ∧ s.sp.val = 0 ∧ s.status = .running ∧ s.prev = none ∧
    (∀ px py, s.pixel px py = false) ∧ (State.reset = State.resetWith Config.fontTable true)

/-- Program load: the bytes stand at `0x200` in order, and nothing else differs from reset. The limit of 3584 bytes as
a premise is the spec's decision D16 (log 19); the state it starts from is that of reset (log 9 to 12). The canonical
form of memory is the model's own representation (log 20). -/
def Obligations.LaunchPlacesTheProgram : Prop :=
  ∀ (font : Vector Byte 80) (haltCheck : Bool) (p : List Byte), p.length ≤ 3584 →
    (∀ k, (h : k < p.length) → (launchWith font haltCheck (some p)).peek (0x200 + k) = p[k]) ∧
    (launchWith font haltCheck (some p)).memWf ∧
    Frame (fun q => ∃ a, q = .byte a ∧ 0x200 ≤ a ∧ a < 0x200 + p.length) (State.resetWith font haltCheck)
      (launchWith font haltCheck (some p))

/-- A program that does not fit, or a source that fails, is a `LOAD_FAILURE`: nothing is loaded and the interpreter
does not start: the step after launch moves only the outside world's parts, which go on by D12 and D20 (log 2), and
`EndedRunMovesOnlyTheOutside` says the same of every later one. The length limit as a failure is D16 (log 19). -/
def Obligations.FailedLaunchNeverStarts : Prop :=
  ∀ (font : Vector Byte 80) (haltCheck : Bool) (source : Option (List Byte)),
    (∀ p, source = some p → 3584 < p.length) →
    ∃ t, step (launchWith font haltCheck source) = .next t ∧ t.status = .fatal .loadFailure ∧
      Frame (fun p => p.outside ∨ p = .status) (State.resetWith font haltCheck) t

/-! ### The execution cycle (40_execution_cycle) -/

/-- When the bytes at `PC` decode to an instruction and the halt check does not stop on their word, a step is that
instruction's execution on the state after the outside world's steps and the advance; and the advance sets `PREV` to
the word, adds 2 to `PC` and changes nothing else. That a step takes one input of the outside world first is the model's
grouping (log 2). -/
def Obligations.StepRunsTheDecodedInstruction : Prop :=
  ∀ (s : State) (i : Instr), s.status = .running → s.pc.toNat ≤ 4094 →
    decode [s.peek s.pc.toNat, s.peek (s.pc.toNat + 1)] = .ok (i, []) → s.haltsOn s.wordAtPc = false →
    step s = exec i (s.takeInput.advance s.wordAtPc) ∧ (s.takeInput.advance s.wordAtPc).prev = some s.wordAtPc ∧
      (s.takeInput.advance s.wordAtPc).pc.toNat = s.pc.toNat + 2 ∧
      Frame (fun p => p.outside ∨ p = .prev ∨ p = .pc) s (s.takeInput.advance s.wordAtPc)

/-- The word placed at the fetch address is the next instruction to run, in every state: the model's own interface to
the host (log 19). The outside world's parts move first (log 2). The canonical form of memory is the model's own
representation (log 20). -/
def Obligations.PlacedWordRunsNext : Prop :=
  ∀ (s : State) (w : Nat), w < 65536 → s.memWf →
    decodeTableWord 16 w = some (decodeWord (BitVec.ofNat 16 w)) ∧
    step (s.withFetchWord 16 w) =
      exec (decodeWord (BitVec.ofNat 16 w)) ((s.withFetchWord 16 w).takeInput.advance (BitVec.ofNat 16 w))

/-- A fetch out of range ends the run with the fatal condition; `PC`, `PREV` and everything else of the interpreter's
stay (the content of the report is D6, log 18; the outside world's parts move first, log 2). -/
def Obligations.FetchOutOfRangeIsFatal : Prop :=
  ∀ s : State, s.status = .running → 4095 ≤ s.pc.toNat →
    ∃ t, step s = .next t ∧ t.status = .fatal (.memRange (max s.pc.toNat 4096) .fetch) ∧
      Frame (fun p => p.outside ∨ p = .status) s t

/-- The second of two equal `1nnn` words halts the run where it stands: `PC` and `PREV` stay, it is not executed (the
details are D13, log 29). With the parameter `HALT_CHECK` (log 7) false it is executed like any word. The outside world's
parts move first (log 2). -/
def Obligations.EqualJumpPairHalts : Prop :=
  ∀ s : State, s.status = .running → s.pc.toNat ≤ 4094 → famOf s.wordAtPc = 1 → s.prev = some s.wordAtPc →
    ∃ t, step s = .next t ∧
      (s.haltCheck = true → t.status = .halted ∧ Frame (fun p => p.outside ∨ p = .status) s t) ∧
      (s.haltCheck = false → t.status = .running ∧ t.pc.toNat = s.wordAtPc.toNat % 4096)

/-- `HALTED` is entered by nothing but the halt check: whichever instruction runs (R23's table). -/
def Obligations.OnlyTheHaltCheckHalts : Prop :=
  ∀ s t : State, s.status = .running → step s = .next t → t.status = .halted →
    s.haltCheck = true ∧ s.pc.toNat ≤ 4094 ∧ s.prev = some s.wordAtPc ∧ famOf s.wordAtPc = 1 ∧ t.pc = s.pc ∧
      t.prev = s.prev

/-- An ignored word is a no-op of the whole step: it never halts, as second word or as first, becomes `PREV`, `PC`
advances by 2, nothing else of the interpreter's changes (R86). Which words are ignored is `DecodeSelectsTheTableRow`. -/
def Obligations.IgnoredWordIsANoOp : Prop :=
  ∀ (s : State) (w : Word), exec (.ignored w) s = .next s ∧
    (s.status = .running → s.pc.toNat ≤ 4094 → decodeWord s.wordAtPc = .ignored w →
      w = s.wordAtPc ∧ s.haltsOn w = false ∧
      ∃ t, step s = .next t ∧ t.prev = some w ∧ t.pc.toNat = s.pc.toNat + 2 ∧ (∀ w', t.haltsOn w' = false) ∧
        Frame (fun p => p.outside ∨ p = .prev ∨ p = .pc) s t)

/-! ### Fatal conditions (60_exceptions section 1) -/

/-- Execution raises a fatal condition only in the listed cases, with the reported information (D6, log 18), and it is
precise: only `STATUS` changes. That each listed case does raise it is `InstructionLimitsAreFatal`. That an address is
not wrapped is D7 (log 17). -/
def Obligations.FatalConditionsArePrecise : Prop :=
  ∀ (i : Instr) (s t : State) (c : FatalCause), exec i s = .next t → t.status = .fatal c → s.status ≠ .fatal c →
    Frame (fun p => p = .status) s t ∧
    ((i = .ret ∧ s.sp.val = 0 ∧ c = .stackUnderflow (s.pc - 2)) ∨
     (∃ nnn, i = .call nnn ∧ s.sp.val = 16 ∧ c = .stackOverflow (s.pc - 2)) ∨
     (∃ x y n, i = .drwVxVyN x y n ∧ 0 < n.toNat ∧ 4096 < s.i.toNat + n.toNat ∧
        c = .memRange (max s.i.toNat 4096) .read) ∨
     (∃ x, i = .ldBVx x ∧ 4096 < s.i.toNat + 3 ∧ c = .memRange (max s.i.toNat 4096) .write) ∨
     (∃ x, i = .ldMemVx x ∧ 4096 < s.i.toNat + x.val + 1 ∧ c = .memRange (max s.i.toNat 4096) .write) ∨
     (∃ x, i = .ldVxMem x ∧ 4096 < s.i.toNat + x.val + 1 ∧ c = .memRange (max s.i.toNat 4096) .read))

/-- The six instructions that can fail do so exactly out of their limits: a call on the full stack, a return on the
empty one, the four memory instructions out of range, which report the lowest address out of range; nothing changes
but `STATUS` (the reported information is D6, log 18). That an address is not wrapped is D7 (log 17). -/
def Obligations.InstructionLimitsAreFatal : Prop :=
  ∀ (s : State) (nnn : BitVec 12) (x y : Reg) (n : BitVec 4),
    (s.sp.val = 16 → ∃ t, exec (.call nnn) s = .next t ∧ t.status = .fatal (.stackOverflow (s.pc - 2)) ∧
      Frame (fun p => p = .status) s t) ∧
    (s.sp.val = 0 → ∃ t, exec .ret s = .next t ∧ t.status = .fatal (.stackUnderflow (s.pc - 2)) ∧
      Frame (fun p => p = .status) s t) ∧
    (4093 < s.i.toNat → ∃ t, exec (.ldBVx x) s = .next t ∧
      t.status = .fatal (.memRange (max s.i.toNat 4096) .write) ∧ Frame (fun p => p = .status) s t) ∧
    (4095 < s.i.toNat + x.val → ∃ t, exec (.ldMemVx x) s = .next t ∧
      t.status = .fatal (.memRange (max s.i.toNat 4096) .write) ∧ Frame (fun p => p = .status) s t) ∧
    (4095 < s.i.toNat + x.val → ∃ t, exec (.ldVxMem x) s = .next t ∧
      t.status = .fatal (.memRange (max s.i.toNat 4096) .read) ∧ Frame (fun p => p = .status) s t) ∧
    (0 < n.toNat → 4096 < s.i.toNat + n.toNat → ∃ t, exec (.drwVxVyN x y n) s = .next t ∧
      t.status = .fatal (.memRange (max s.i.toNat 4096) .read) ∧ Frame (fun p => p = .status) s t)

/-- An ended run has no interpreter step, for ever: only the outside world's parts move (R150, R164; that the schedule
goes on is D12, D20, log 2). -/
def Obligations.EndedRunMovesOnlyTheOutside : Prop :=
  ∀ s : State, s.ended → ∃ t, step s = .next t ∧ t.ended ∧ t.status = s.status ∧ Frame Part.outside s t

/-! ### The outside world (60_exceptions section 3, 10_state sections 7 and 8) -/

/-- The outside world's part of a step is the timer schedule's own steps, as many as the input says, and the
environment's key flags, all sixteen (log 26), in one part before the interpreter's (log 2); it touches nothing else. With
no input listed every part of it is a free value (log 3). -/
def Obligations.InputIsTicksAndKeys : Prop :=
  ∀ s : State,
    s.takeInput.dt = (State.tickDT^[s.nextInput.ticksDT] s).dt ∧
    s.takeInput.st = (State.tickST^[s.nextInput.ticksST] s).st ∧
    s.takeInput.soundEvents = (State.tickST^[s.nextInput.ticksST] s).soundEvents ∧
    s.takeInput.keys = s.nextInput.keys ∧ s.takeInput.input = s.nextInput ∧
    (s.script = [] → s.nextInput = Input.free s.fresh) ∧ Frame Part.outside s s.takeInput

/-- `TickDT` lowers `DT` by one while it is above 0 and saturates at 0; it touches nothing else; `n` ticks lower it by
`n`, never below 0 (R161). -/
def Obligations.DelayTickCountsDown : Prop :=
  ∀ (s : State) (n : Nat),
    (s.dt ≠ 0 → s.tickDT.dt.toNat = s.dt.toNat - 1) ∧ (s.dt = 0 → s.tickDT = s) ∧ Frame (fun p => p = .dt) s s.tickDT ∧
    (State.tickDT^[n] s).dt.toNat = s.dt.toNat - n

/-- `n` ticks of `ST` lower it by `n`, never below 0, and emit one sound event for each decrement, the one from 1 to 0
included (D21, log 22). -/
def Obligations.SoundTickCountsDownAndSounds : Prop :=
  ∀ (s : State) (n : Nat),
    (State.tickST^[n] s).st.toNat = s.st.toNat - n ∧
    (State.tickST^[n] s).soundEvents = s.soundEvents + min n s.st.toNat ∧
    Frame (fun p => p = .st ∨ p = .sound) s (State.tickST^[n] s)

/-- While an `Fx0A` waits, a delivered key is stored in its register and the interpreter runs again; without one the
wait goes on; `PC` and the rest stay, the timers go on (which key and when are free, D10, log 6; the grouping of ticks and
delivery is log 2). -/
def Obligations.WaitEndsByKeyDelivery : Prop :=
  ∀ (s : State) (x : Reg), s.status = .waitKey x →
    (∀ k, s.nextInput.delivery = some k → ∃ t, step s = .next t ∧ (t.reg x).toNat = k.val ∧ t.status = .running ∧
      Frame (fun p => p.outside ∨ p = .status ∨ p = .reg x) s t) ∧
    (s.nextInput.delivery = none → ∃ t, step s = .next t ∧ t.status = .waitKey x ∧ Frame Part.outside s t)

/-- After the end of a run the schedule still drains `DT`: the listed inputs lower it by the sum of their ticks
(60_exceptions section 3; D12). The list of inputs is the model's own (log 3). -/
def Obligations.DelayTimerDrainsAfterTheEnd : Prop :=
  ∀ s : State, s.ended → ∃ t, Host.Core.run core s.script.length s = .next t ∧ t.status = s.status ∧
    t.dt.toNat = s.dt.toNat - (s.script.map Input.ticksDT).sum

/-! ### Who writes what (10_state section 9) -/

/-- `I`, the timers, `SP`, the stack, memory and the display are written only by the instructions that 10_state sections
3 to 7 name, and no instruction touches the keys, the sound events, `PREV` or the parameters. That `DT` is written by
`Fx15` and `ST` by `Fx18` is the spec's decision D2 from general knowledge (log 14); that block moves keep `I` is D8
(log 16), that the stack is apart from memory D18 (log 23), that `Fx18` emits no sound event D21 (log 22). -/
def Obligations.EachPartHasItsWriters : Prop :=
  ∀ (i : Instr) (s t : State), exec i s = .next t →
    (t.i ≠ s.i → (∃ nnn, i = .ldINnn nnn) ∨ (∃ x, i = .addIVx x) ∨ ∃ x, i = .ldFVx x) ∧
    (t.dt ≠ s.dt → ∃ x, i = .ldDtVx x) ∧ (t.st ≠ s.st → ∃ x, i = .ldStVx x) ∧
    (t.sp ≠ s.sp → i = .ret ∨ ∃ nnn, i = .call nnn) ∧ (t.stack ≠ s.stack → ∃ nnn, i = .call nnn) ∧
    (t.mem ≠ s.mem → (∃ x, i = .ldBVx x) ∨ ∃ x, i = .ldMemVx x) ∧
    (t.pix ≠ s.pix → i = .cls ∨ ∃ x y n, i = .drwVxVyN x y n) ∧
    t.keys = s.keys ∧ t.soundEvents = s.soundEvents ∧ t.prev = s.prev ∧ t.font = s.font ∧ t.haltCheck = s.haltCheck

/-- `VF` changes only by one of the six flag instructions, with a value 0 or 1, or as the destination that `x = F`
names (10_state section 2; that no other instruction defines a flag is D8, log 16). That Fx07 is a destination writer
and Fx15 and Fx18 are none rests on the timer directions D2, taken from general knowledge (log 14). -/
def Obligations.FlagHasSixWriters : Prop :=
  ∀ (i : Instr) (s t : State), exec i s = .next t → t.reg Reg.vf ≠ s.reg Reg.vf →
    ((∃ x y, i = .addVxVy x y ∨ i = .subVxVy x y ∨ i = .shrVx x y ∨ i = .subnVxVy x y ∨ i = .shlVx x y ∨
        ∃ n, i = .drwVxVyN x y n) ∧ (t.reg Reg.vf = 0 ∨ t.reg Reg.vf = 1)) ∨
    (∃ kk, i = .ldVxKk Reg.vf kk ∨ i = .addVxKk Reg.vf kk ∨ i = .rndVxKk Reg.vf kk) ∨
    (∃ y, i = .ldVxVy Reg.vf y ∨ i = .orVxVy Reg.vf y ∨ i = .andVxVy Reg.vf y ∨ i = .xorVxVy Reg.vf y) ∨
    i = .ldVxDt Reg.vf ∨ i = .ldVxMem Reg.vf

/-- No instruction reads `ST`: two states that differ in it and in the sound events alone go to states that differ in
them alone (10_state section 4; the timer directions are D2, log 14). -/
def Obligations.NoInstructionReadsTheSoundTimer : Prop :=
  ∀ (i : Instr) (s t : State) (b : Byte) (n : Nat), exec i s = .next t →
    ∃ u, exec i { s with st := b, soundEvents := n } = .next u ∧ Frame (fun p => p = .st ∨ p = .sound) t u

/-- A stack slot at or above `SP` cannot be observed: two states that differ in such slots alone go to states that
differ in such slots alone (10_state section 5, which marks it as derived). That the stack is apart from memory is D18
(log 23). -/
def Obligations.SlotsAboveSpAreUnobservable : Prop :=
  ∀ (i : Instr) (s t : State) (stack : Vector Word 16),
    (∀ j : Fin 16, j.val < s.sp.val → stack.get j = s.stack.get j) → exec i s = .next t →
    ∃ u, exec i { s with stack := stack } = .next u ∧
      Frame (fun p => ∃ j : Fin 16, p = .slot j ∧ t.sp.val ≤ j.val) t u

/-! ### Control transfer (41_control_transfer) -/

/-- `00EE` with a slot in use: `SP` goes down by one and `PC` is the slot it then names. That a slot holds a whole 16-bit
`PC`, apart from memory, is D18 (log 23). -/
def Obligations.ReturnPopsTheStack : Prop :=
  ∀ (s : State) (j : Fin 16), s.sp.val = j.val + 1 →
    ∃ t, exec .ret s = .next t ∧ t.sp.val = j.val ∧ t.pc = s.stack.get j ∧ Frame (fun p => p = .sp ∨ p = .pc) s t

/-- `2nnn` with a free slot: the slot `SP` names takes `PC`, `SP` goes up by one, `PC` is `nnn`. That a slot holds a whole
16-bit `PC` and that no byte of memory changes is D18 (log 23). -/
def Obligations.CallPushesThePc : Prop :=
  ∀ (s : State) (j : Fin 16) (nnn : BitVec 12), s.sp.val = j.val →
    ∃ t, exec (.call nnn) s = .next t ∧ t.stack.get j = s.pc ∧ t.sp.val = j.val + 1 ∧ t.pc.toNat = nnn.toNat ∧
      Frame (fun p => p = .slot j ∨ p = .sp ∨ p = .pc) s t

/-- A return undoes the call: from any state that still has the call's stack and `SP`, `PC` is again the address after
the call, and the slots below are as they were (16-bit slots are D18, log 23). -/
def Obligations.CallThenReturnResumes : Prop :=
  ∀ (s u t : State) (nnn : BitVec 12), s.sp.val < 16 → exec (.call nnn) s = .next t → u.sp = t.sp → u.stack = t.stack →
    ∃ w, exec .ret u = .next w ∧ w.pc = s.pc ∧ w.sp = s.sp ∧
      ∀ j : Fin 16, j.val < s.sp.val → w.stack.get j = s.stack.get j

/-- `1nnn` (R92). -/
def Obligations.JumpSetsPc : Prop :=
  ∀ (s : State) (nnn : BitVec 12), decodeWord (fmtNNN 0x1 nnn) = .jp nnn ∧
    ∃ t, exec (.jp nnn) s = .next t ∧ t.pc.toNat = nnn.toNat ∧ Frame (fun p => p = .pc) s t

/-- `3xkk`, `4xkk`, `5xy0`, `9xy0`: a further 2 on `PC` exactly when the comparison holds (R94 to R97). -/
def Obligations.SkipsCompareRegisters : Prop :=
  ∀ (s : State) (x y : Reg) (kk : Byte),
    (decodeWord (fmtXKK 0x3 x kk) = .seVxKk x kk ∧ ∃ t, exec (.seVxKk x kk) s = .next t ∧
      t.pc = (if s.reg x = kk then s.pc + 2 else s.pc) ∧ Frame (fun p => p = .pc) s t) ∧
    (decodeWord (fmtXKK 0x4 x kk) = .sneVxKk x kk ∧ ∃ t, exec (.sneVxKk x kk) s = .next t ∧
      t.pc = (if s.reg x = kk then s.pc else s.pc + 2) ∧ Frame (fun p => p = .pc) s t) ∧
    (decodeWord (fmtXYN 0x5 x y 0x0) = .seVxVy x y ∧ ∃ t, exec (.seVxVy x y) s = .next t ∧
      t.pc = (if s.reg x = s.reg y then s.pc + 2 else s.pc) ∧ Frame (fun p => p = .pc) s t) ∧
    (decodeWord (fmtXYN 0x9 x y 0x0) = .sneVxVy x y ∧ ∃ t, exec (.sneVxVy x y) s = .next t ∧
      t.pc = (if s.reg x = s.reg y then s.pc else s.pc + 2) ∧ Frame (fun p => p = .pc) s t)

/-- `Bnnn`: `PC` is the unmasked sum of `nnn` and `V0` (no mask is D7, log 17). -/
def Obligations.IndexedJumpAddsV0 : Prop :=
  ∀ (s : State) (nnn : BitVec 12), decodeWord (fmtNNN 0xB nnn) = .jpV0Nnn nnn ∧
    ∃ t, exec (.jpV0Nnn nnn) s = .next t ∧ t.pc.toNat = nnn.toNat + (s.reg 0).toNat ∧ Frame (fun p => p = .pc) s t

/-! ### Load, arithmetic, logic, random (42_load_arith_logic) -/

/-- `6xkk` and `8xy0` (R100, R102). -/
def Obligations.RegisterLoads : Prop :=
  ∀ (s : State) (x y : Reg) (kk : Byte),
    (decodeWord (fmtXKK 0x6 x kk) = .ldVxKk x kk ∧ ∃ t, exec (.ldVxKk x kk) s = .next t ∧ t.reg x = kk ∧
      Frame (fun p => p = .reg x) s t) ∧
    (decodeWord (fmtXYN 0x8 x y 0x0) = .ldVxVy x y ∧ ∃ t, exec (.ldVxVy x y) s = .next t ∧ t.reg x = s.reg y ∧
      Frame (fun p => p = .reg x) s t)

/-- `7xkk`: the sum modulo 256, and no flag even on a carry (D8, log 16). -/
def Obligations.AddImmediateSetsNoFlag : Prop :=
  ∀ (s : State) (x : Reg) (kk : Byte), decodeWord (fmtXKK 0x7 x kk) = .addVxKk x kk ∧
    ∃ t, exec (.addVxKk x kk) s = .next t ∧ (t.reg x).toNat = ((s.reg x).toNat + kk.toNat) % 256 ∧
      Frame (fun p => p = .reg x) s t

/-- `8xy1`, `8xy2`, `8xy3`: bit by bit, and no flag (D8, log 16). -/
def Obligations.LogicIsBitwise : Prop :=
  ∀ (s : State) (x y : Reg),
    (∃ t, exec (.orVxVy x y) s = .next t ∧
      (∀ k, (t.reg x).getLsbD k = ((s.reg x).getLsbD k || (s.reg y).getLsbD k)) ∧ Frame (fun p => p = .reg x) s t) ∧
    (∃ t, exec (.andVxVy x y) s = .next t ∧
      (∀ k, (t.reg x).getLsbD k = ((s.reg x).getLsbD k && (s.reg y).getLsbD k)) ∧ Frame (fun p => p = .reg x) s t) ∧
    (∃ t, exec (.xorVxVy x y) s = .next t ∧
      (∀ k, (t.reg x).getLsbD k = ((s.reg x).getLsbD k != (s.reg y).getLsbD k)) ∧ Frame (fun p => p = .reg x) s t)

/-- `8xy4`: the sum modulo 256 and the carry; with `x = F` the carry survives (R106). -/
def Obligations.AddSetsTheCarry : Prop :=
  ∀ (s : State) (x y : Reg), decodeWord (fmtXYN 0x8 x y 0x4) = .addVxVy x y ∧
    ∃ t, exec (.addVxVy x y) s = .next t ∧
      (x ≠ Reg.vf → (t.reg x).toNat = ((s.reg x).toNat + (s.reg y).toNat) % 256) ∧
      t.reg Reg.vf = (if 255 < (s.reg x).toNat + (s.reg y).toNat then 1 else 0) ∧
      Frame (fun p => p = .reg x ∨ p = .reg Reg.vf) s t

/-- `8xy5` and `8xy7`: the difference modulo 256 and the strict comparison; with `x = F` the flag survives (R107,
R109). -/
def Obligations.SubtractSetsStrictlyGreater : Prop :=
  ∀ (s : State) (x y : Reg),
    (decodeWord (fmtXYN 0x8 x y 0x5) = .subVxVy x y ∧ ∃ t, exec (.subVxVy x y) s = .next t ∧
      (x ≠ Reg.vf → ((t.reg x).toNat : Int) = (((s.reg x).toNat : Int) - (s.reg y).toNat) % 256) ∧
      t.reg Reg.vf = (if (s.reg y).toNat < (s.reg x).toNat then 1 else 0) ∧
      Frame (fun p => p = .reg x ∨ p = .reg Reg.vf) s t) ∧
    (decodeWord (fmtXYN 0x8 x y 0x7) = .subnVxVy x y ∧ ∃ t, exec (.subnVxVy x y) s = .next t ∧
      (x ≠ Reg.vf → ((t.reg x).toNat : Int) = (((s.reg y).toNat : Int) - (s.reg x).toNat) % 256) ∧
      t.reg Reg.vf = (if (s.reg x).toNat < (s.reg y).toNat then 1 else 0) ∧
      Frame (fun p => p = .reg x ∨ p = .reg Reg.vf) s t)

/-- `8xy6` and `8xyE`: one bit, logical, of `Vx` alone, `VF` the bit shifted out (that `y` is not used is D8,
log 16). -/
def Obligations.ShiftsReportTheBitShiftedOut : Prop :=
  ∀ (s : State) (x y : Reg),
    (∃ t, exec (.shrVx x y) s = .next t ∧ (x ≠ Reg.vf → (t.reg x).toNat = (s.reg x).toNat / 2) ∧
      (t.reg Reg.vf).toNat = (s.reg x).toNat % 2 ∧ Frame (fun p => p = .reg x ∨ p = .reg Reg.vf) s t) ∧
    (∃ t, exec (.shlVx x y) s = .next t ∧ (x ≠ Reg.vf → (t.reg x).toNat = 2 * (s.reg x).toNat % 256) ∧
      (t.reg Reg.vf).toNat = (s.reg x).toNat / 128 ∧ Frame (fun p => p = .reg x ∨ p = .reg Reg.vf) s t)

/-- `Cxkk`: the step's random byte masked with `kk`; the byte is a free value wherever no input is listed (D11,
log 4). -/
def Obligations.RandomByteIsMasked : Prop :=
  ∀ (s : State) (x : Reg) (kk : Byte),
    (∃ t, exec (.rndVxKk x kk) s = .next t ∧ t.reg x = s.input.random &&& kk ∧
      (∀ k, kk.getLsbD k = false → (t.reg x).getLsbD k = false) ∧ Frame (fun p => p = .reg x) s t) ∧
    (s.script = [] → s.takeInput.input.random = Config.randomByte s.fresh)

/-! ### Address register and memory (43_index_memory) -/

/-- `Annn` (R120). -/
def Obligations.LoadIndexIsImmediate : Prop :=
  ∀ (s : State) (nnn : BitVec 12), decodeWord (fmtNNN 0xA nnn) = .ldINnn nnn ∧
    ∃ t, exec (.ldINnn nnn) s = .next t ∧ t.i.toNat = nnn.toNat ∧ Frame (fun p => p = .addrI) s t

/-- `Fx1E` is modulo 65536 and `Fx29` multiplies the whole byte by 5; neither sets a flag (D7, D8; log 16, log 17). -/
def Obligations.IndexArithmeticIsUnmasked : Prop :=
  ∀ (s : State) (x : Reg),
    (∃ t, exec (.addIVx x) s = .next t ∧ t.i.toNat = (s.i.toNat + (s.reg x).toNat) % 65536 ∧
      Frame (fun p => p = .addrI) s t) ∧
    (∃ t, exec (.ldFVx x) s = .next t ∧ t.i.toNat = 5 * (s.reg x).toNat ∧ Frame (fun p => p = .addrI) s t)

/-- `Fx33` in range: the three decimal digits, most significant first, and nothing else (43_index_memory section 3); I
stays (D8, log 16). The canonical form of memory is the model's own representation (log 20). That the stack is apart
from memory is D18 (log 23). -/
def Obligations.DecimalDigitsAreStored : Prop :=
  ∀ (s : State) (x : Reg), s.memWf → s.i.toNat ≤ 4093 →
    ∃ t, exec (.ldBVx x) s = .next t ∧ (t.peek s.i.toNat).toNat = (s.reg x).toNat / 100 ∧
      (t.peek (s.i.toNat + 1)).toNat = (s.reg x).toNat / 10 % 10 ∧
      (t.peek (s.i.toNat + 2)).toNat = (s.reg x).toNat % 10 ∧
      Frame (fun p => ∃ a, p = .byte a ∧ s.i.toNat ≤ a ∧ a < s.i.toNat + 3) s t

/-- `Fx55` in range: `V0` to `Vx` at `I` upward, and nothing else; `I` stays (D8, log 16). The canonical form of
memory is the model's own representation (log 20). That the stack is apart from memory is D18 (log 23). -/
def Obligations.BlockStoreWritesTheRegisters : Prop :=
  ∀ (s : State) (x : Reg), s.memWf → s.i.toNat + x.val ≤ 4095 →
    ∃ t, exec (.ldMemVx x) s = .next t ∧ (∀ r : Reg, r ≤ x → t.peek (s.i.toNat + r.val) = s.reg r) ∧
      Frame (fun p => ∃ a, p = .byte a ∧ s.i.toNat ≤ a ∧ a < s.i.toNat + (x.val + 1)) s t

/-- `Fx65` in range: `V0` to `Vx` from `I` upward, and nothing else; `I` stays (D8, log 16). -/
def Obligations.BlockLoadReadsTheRegisters : Prop :=
  ∀ (s : State) (x : Reg), s.i.toNat + x.val ≤ 4095 →
    ∃ t, exec (.ldVxMem x) s = .next t ∧ (∀ r : Reg, r ≤ x → t.reg r = s.peek (s.i.toNat + r.val)) ∧
      Frame (fun p => ∃ r, p = .reg r ∧ r ≤ x) s t

/-- `Fx55`, then from any state with that memory and `I`, `Fx65` with the same `x`: `V0` to `Vx` are as they were. The
canonical form of memory is the model's own representation (log 20). -/
def Obligations.StoreThenLoadRestoresRegisters : Prop :=
  ∀ (s t u : State) (x : Reg), s.memWf → s.i.toNat + x.val ≤ 4095 → exec (.ldMemVx x) s = .next t →
    u.i = s.i → (∀ a, u.peek a = t.peek a) →
    ∃ w, exec (.ldVxMem x) u = .next w ∧ ∀ r : Reg, r ≤ x → w.reg r = s.reg r

/-! ### Display and keypad (44_display_keypad) -/

/-- `00E0` (44_display_keypad section 1). That every pixel is unlit after the clear is derived by the spec, since its
source says only 'clear display' (10_state section 7, 91_not_in_source N20; log 27). -/
def Obligations.ClearUnlightsEveryPixel : Prop :=
  ∀ s : State, decodeWord 0x00E0 = .cls ∧
    ∃ t, exec .cls s = .next t ∧ (∀ px py, t.pixel px py = false) ∧ Frame (fun p => ∃ px py, p = .pixel px py) s t

/-- `Dxyn` in range: exactly the covered pixels change, each wrapping on its own; `VF` is 1 exactly when a covered pixel
was lit, else 0, written also for `n = 0`; nothing else changes. Bit 7 as the left column is D3 (log 15); that `I` stays is
D8 (log 16). -/
def Obligations.DrawTogglesTheCoveredPixels : Prop :=
  ∀ (s : State) (x y : Reg) (n : BitVec 4), (n.toNat = 0 ∨ s.i.toNat + n.toNat ≤ 4096) →
    ∃ t, exec (.drwVxVyN x y n) s = .next t ∧
      (∀ px py, spriteCovers s x y n px py → t.pixel px py = !(s.pixel px py)) ∧
      (∀ px py, ¬ spriteCovers s x y n px py → t.pixel px py = s.pixel px py) ∧
      ((∃ px py, spriteCovers s x y n px py ∧ s.pixel px py = true) → t.reg Reg.vf = 1) ∧
      ((¬ ∃ px py, spriteCovers s x y n px py ∧ s.pixel px py = true) → t.reg Reg.vf = 0) ∧
      Frame (fun p => p = .reg Reg.vf ∨ ∃ px py, p = .pixel px py) s t

/-- Drawing the same sprite twice at the same place restores the display; the second draw reports a collision exactly
when the sprite covers a pixel that was unlit at first (log 30 on the corner case of the rule); the bit order is D3
(log 15); the second draw may name other registers that hold the same coordinates. In which case a draw is out of
range is D6 and D7 (log 17, log 18). -/
def Obligations.DrawTwiceRestoresTheDisplay : Prop :=
  ∀ (s t u w : State) (x y x' y' : Reg) (n : BitVec 4), exec (.drwVxVyN x y n) s = .next t →
    u.pix = t.pix → u.i = s.i → (∀ a, u.peek a = s.peek a) → u.reg x' = s.reg x → u.reg y' = s.reg y →
    exec (.drwVxVyN x' y' n) u = .next w →
    (∀ px py, w.pixel px py = s.pixel px py) ∧
      (s.i.toNat + n.toNat ≤ 4096 →
        w.reg Reg.vf = 1 ∧ (∃ px py, spriteCovers s x y n px py ∧ s.pixel px py = false) ∨
        w.reg Reg.vf = 0 ∧ ∀ px py, spriteCovers s x y n px py → s.pixel px py = true)

/-- `Ex9E` and `ExA1`: for an index of 0 to 15 the key's flag decides; above 15 the free answer of the step's input,
which is a free value wherever no input is listed (D9, log 5). -/
def Obligations.KeySkipsFollowTheFlag : Prop :=
  ∀ (s : State) (x : Reg),
    (∀ k : Key, (s.reg x).toNat = k.val →
      (∃ t, exec (.skpVx x) s = .next t ∧ t.pc = (if s.keys.get k = true then s.pc + 2 else s.pc) ∧
        Frame (fun p => p = .pc) s t) ∧
      (∃ t, exec (.sknpVx x) s = .next t ∧ t.pc = (if s.keys.get k = true then s.pc else s.pc + 2) ∧
        Frame (fun p => p = .pc) s t)) ∧
    (15 < (s.reg x).toNat →
      (∃ t, exec (.skpVx x) s = .next t ∧ t.pc = (if s.input.keyAnswer = true then s.pc + 2 else s.pc) ∧
        Frame (fun p => p = .pc) s t) ∧
      (∃ t, exec (.sknpVx x) s = .next t ∧ t.pc = (if s.input.keyAnswer = true then s.pc else s.pc + 2) ∧
        Frame (fun p => p = .pc) s t)) ∧
    (s.script = [] → s.takeInput.input.keyAnswer = Config.keyAnswer s.fresh)

/-- `Fx0A`'s own step: the wait begins, nothing else changes (the delivery is `WaitEndsByKeyDelivery`; what is
delivered is D10, log 6). That STATUS is a register of four values is D6 and D20 (log 1). -/
def Obligations.KeyWaitBegins : Prop :=
  ∀ (s : State) (x : Reg), decodeWord (fmtX 0xF x 0x0A) = .ldVxK x ∧
    ∃ t, exec (.ldVxK x) s = .next t ∧ t.status = .waitKey x ∧ Frame (fun p => p = .status) s t

/-! ### Timers (45_timer_access) -/

/-- `Fx07`, `Fx15`, `Fx18`; the directions are the spec's decision D2 from general knowledge (log 14), and that `Fx18`
emits no sound event is D21 (log 22). -/
def Obligations.TimerInstructionsCopy : Prop :=
  ∀ (s : State) (x : Reg),
    (∃ t, exec (.ldVxDt x) s = .next t ∧ t.reg x = s.dt ∧ Frame (fun p => p = .reg x) s t) ∧
    (∃ t, exec (.ldDtVx x) s = .next t ∧ t.dt = s.reg x ∧ Frame (fun p => p = .dt) s t) ∧
    (∃ t, exec (.ldStVx x) s = .next t ∧ t.st = s.reg x ∧ Frame (fun p => p = .st) s t)
end

