-- ==== Sys2Proof/Laws/State.lean ====
section
/-! SUPPORT. One lemma per field per update of the state, each true by `rfl`, so that no proof unfolds a record
update. -/
namespace Sys2Proof.Machine

variable (s : State)

/-! ### setReg -/

@[simp] theorem State.setReg_v (r : Reg) (b : Byte) : (s.setReg r b).v = s.v.set r.val b r.isLt := rfl
@[simp] theorem State.setReg_i (r : Reg) (b : Byte) : (s.setReg r b).i = s.i := rfl
@[simp] theorem State.setReg_pc (r : Reg) (b : Byte) : (s.setReg r b).pc = s.pc := rfl
@[simp] theorem State.setReg_dt (r : Reg) (b : Byte) : (s.setReg r b).dt = s.dt := rfl
@[simp] theorem State.setReg_st (r : Reg) (b : Byte) : (s.setReg r b).st = s.st := rfl
@[simp] theorem State.setReg_sp (r : Reg) (b : Byte) : (s.setReg r b).sp = s.sp := rfl
@[simp] theorem State.setReg_stack (r : Reg) (b : Byte) : (s.setReg r b).stack = s.stack := rfl
@[simp] theorem State.setReg_mem (r : Reg) (b : Byte) : (s.setReg r b).mem = s.mem := rfl
@[simp] theorem State.setReg_pix (r : Reg) (b : Byte) : (s.setReg r b).pix = s.pix := rfl
@[simp] theorem State.setReg_keys (r : Reg) (b : Byte) : (s.setReg r b).keys = s.keys := rfl
@[simp] theorem State.setReg_status (r : Reg) (b : Byte) : (s.setReg r b).status = s.status := rfl
@[simp] theorem State.setReg_prev (r : Reg) (b : Byte) : (s.setReg r b).prev = s.prev := rfl
@[simp] theorem State.setReg_soundEvents (r : Reg) (b : Byte) : (s.setReg r b).soundEvents = s.soundEvents := rfl
@[simp] theorem State.setReg_haltCheck (r : Reg) (b : Byte) : (s.setReg r b).haltCheck = s.haltCheck := rfl
@[simp] theorem State.setReg_font (r : Reg) (b : Byte) : (s.setReg r b).font = s.font := rfl
@[simp] theorem State.setReg_input (r : Reg) (b : Byte) : (s.setReg r b).input = s.input := rfl
@[simp] theorem State.setReg_script (r : Reg) (b : Byte) : (s.setReg r b).script = s.script := rfl
@[simp] theorem State.setReg_fresh (r : Reg) (b : Byte) : (s.setReg r b).fresh = s.fresh := rfl

/-! ### setRegFlag -/

@[simp] theorem State.setRegFlag_i (x : Reg) (b f : Byte) : (s.setRegFlag x b f).i = s.i := rfl
@[simp] theorem State.setRegFlag_pc (x : Reg) (b f : Byte) : (s.setRegFlag x b f).pc = s.pc := rfl
@[simp] theorem State.setRegFlag_dt (x : Reg) (b f : Byte) : (s.setRegFlag x b f).dt = s.dt := rfl
@[simp] theorem State.setRegFlag_st (x : Reg) (b f : Byte) : (s.setRegFlag x b f).st = s.st := rfl
@[simp] theorem State.setRegFlag_sp (x : Reg) (b f : Byte) : (s.setRegFlag x b f).sp = s.sp := rfl
@[simp] theorem State.setRegFlag_stack (x : Reg) (b f : Byte) : (s.setRegFlag x b f).stack = s.stack := rfl
@[simp] theorem State.setRegFlag_mem (x : Reg) (b f : Byte) : (s.setRegFlag x b f).mem = s.mem := rfl
@[simp] theorem State.setRegFlag_pix (x : Reg) (b f : Byte) : (s.setRegFlag x b f).pix = s.pix := rfl
@[simp] theorem State.setRegFlag_keys (x : Reg) (b f : Byte) : (s.setRegFlag x b f).keys = s.keys := rfl
@[simp] theorem State.setRegFlag_status (x : Reg) (b f : Byte) : (s.setRegFlag x b f).status = s.status := rfl
@[simp] theorem State.setRegFlag_prev (x : Reg) (b f : Byte) : (s.setRegFlag x b f).prev = s.prev := rfl
@[simp] theorem State.setRegFlag_soundEvents (x : Reg) (b f : Byte) : (s.setRegFlag x b f).soundEvents = s.soundEvents := rfl
@[simp] theorem State.setRegFlag_haltCheck (x : Reg) (b f : Byte) : (s.setRegFlag x b f).haltCheck = s.haltCheck := rfl
@[simp] theorem State.setRegFlag_font (x : Reg) (b f : Byte) : (s.setRegFlag x b f).font = s.font := rfl
@[simp] theorem State.setRegFlag_input (x : Reg) (b f : Byte) : (s.setRegFlag x b f).input = s.input := rfl
@[simp] theorem State.setRegFlag_script (x : Reg) (b f : Byte) : (s.setRegFlag x b f).script = s.script := rfl
@[simp] theorem State.setRegFlag_fresh (x : Reg) (b f : Byte) : (s.setRegFlag x b f).fresh = s.fresh := rfl

/-! ### setPc -/

@[simp] theorem State.setPc_v (w : Word) : (s.setPc w).v = s.v := rfl
@[simp] theorem State.setPc_i (w : Word) : (s.setPc w).i = s.i := rfl
@[simp] theorem State.setPc_pc (w : Word) : (s.setPc w).pc = w := rfl
@[simp] theorem State.setPc_dt (w : Word) : (s.setPc w).dt = s.dt := rfl
@[simp] theorem State.setPc_st (w : Word) : (s.setPc w).st = s.st := rfl
@[simp] theorem State.setPc_sp (w : Word) : (s.setPc w).sp = s.sp := rfl
@[simp] theorem State.setPc_stack (w : Word) : (s.setPc w).stack = s.stack := rfl
@[simp] theorem State.setPc_mem (w : Word) : (s.setPc w).mem = s.mem := rfl
@[simp] theorem State.setPc_pix (w : Word) : (s.setPc w).pix = s.pix := rfl
@[simp] theorem State.setPc_keys (w : Word) : (s.setPc w).keys = s.keys := rfl
@[simp] theorem State.setPc_status (w : Word) : (s.setPc w).status = s.status := rfl
@[simp] theorem State.setPc_prev (w : Word) : (s.setPc w).prev = s.prev := rfl
@[simp] theorem State.setPc_soundEvents (w : Word) : (s.setPc w).soundEvents = s.soundEvents := rfl
@[simp] theorem State.setPc_haltCheck (w : Word) : (s.setPc w).haltCheck = s.haltCheck := rfl
@[simp] theorem State.setPc_font (w : Word) : (s.setPc w).font = s.font := rfl
@[simp] theorem State.setPc_input (w : Word) : (s.setPc w).input = s.input := rfl
@[simp] theorem State.setPc_script (w : Word) : (s.setPc w).script = s.script := rfl
@[simp] theorem State.setPc_fresh (w : Word) : (s.setPc w).fresh = s.fresh := rfl

/-! ### skip -/

@[simp] theorem State.skip_v : (s.skip).v = s.v := rfl
@[simp] theorem State.skip_i : (s.skip).i = s.i := rfl
@[simp] theorem State.skip_pc : (s.skip).pc = s.pc + 2 := rfl
@[simp] theorem State.skip_dt : (s.skip).dt = s.dt := rfl
@[simp] theorem State.skip_st : (s.skip).st = s.st := rfl
@[simp] theorem State.skip_sp : (s.skip).sp = s.sp := rfl
@[simp] theorem State.skip_stack : (s.skip).stack = s.stack := rfl
@[simp] theorem State.skip_mem : (s.skip).mem = s.mem := rfl
@[simp] theorem State.skip_pix : (s.skip).pix = s.pix := rfl
@[simp] theorem State.skip_keys : (s.skip).keys = s.keys := rfl
@[simp] theorem State.skip_status : (s.skip).status = s.status := rfl
@[simp] theorem State.skip_prev : (s.skip).prev = s.prev := rfl
@[simp] theorem State.skip_soundEvents : (s.skip).soundEvents = s.soundEvents := rfl
@[simp] theorem State.skip_haltCheck : (s.skip).haltCheck = s.haltCheck := rfl
@[simp] theorem State.skip_font : (s.skip).font = s.font := rfl
@[simp] theorem State.skip_input : (s.skip).input = s.input := rfl
@[simp] theorem State.skip_script : (s.skip).script = s.script := rfl
@[simp] theorem State.skip_fresh : (s.skip).fresh = s.fresh := rfl

/-! ### poke -/

@[simp] theorem State.poke_v (a : Nat) (u : Byte) : (s.poke a u).v = s.v := rfl
@[simp] theorem State.poke_i (a : Nat) (u : Byte) : (s.poke a u).i = s.i := rfl
@[simp] theorem State.poke_pc (a : Nat) (u : Byte) : (s.poke a u).pc = s.pc := rfl
@[simp] theorem State.poke_dt (a : Nat) (u : Byte) : (s.poke a u).dt = s.dt := rfl
@[simp] theorem State.poke_st (a : Nat) (u : Byte) : (s.poke a u).st = s.st := rfl
@[simp] theorem State.poke_sp (a : Nat) (u : Byte) : (s.poke a u).sp = s.sp := rfl
@[simp] theorem State.poke_stack (a : Nat) (u : Byte) : (s.poke a u).stack = s.stack := rfl
@[simp] theorem State.poke_mem (a : Nat) (u : Byte) : (s.poke a u).mem = Memory.put s.font a u s.mem := rfl
@[simp] theorem State.poke_pix (a : Nat) (u : Byte) : (s.poke a u).pix = s.pix := rfl
@[simp] theorem State.poke_keys (a : Nat) (u : Byte) : (s.poke a u).keys = s.keys := rfl
@[simp] theorem State.poke_status (a : Nat) (u : Byte) : (s.poke a u).status = s.status := rfl
@[simp] theorem State.poke_prev (a : Nat) (u : Byte) : (s.poke a u).prev = s.prev := rfl
@[simp] theorem State.poke_soundEvents (a : Nat) (u : Byte) : (s.poke a u).soundEvents = s.soundEvents := rfl
@[simp] theorem State.poke_haltCheck (a : Nat) (u : Byte) : (s.poke a u).haltCheck = s.haltCheck := rfl
@[simp] theorem State.poke_font (a : Nat) (u : Byte) : (s.poke a u).font = s.font := rfl
@[simp] theorem State.poke_input (a : Nat) (u : Byte) : (s.poke a u).input = s.input := rfl
@[simp] theorem State.poke_script (a : Nat) (u : Byte) : (s.poke a u).script = s.script := rfl
@[simp] theorem State.poke_fresh (a : Nat) (u : Byte) : (s.poke a u).fresh = s.fresh := rfl

/-! ### raiseFatal -/

@[simp] theorem State.raiseFatal_v (c : FatalCause) : (s.raiseFatal c).v = s.v := rfl
@[simp] theorem State.raiseFatal_i (c : FatalCause) : (s.raiseFatal c).i = s.i := rfl
@[simp] theorem State.raiseFatal_pc (c : FatalCause) : (s.raiseFatal c).pc = s.pc := rfl
@[simp] theorem State.raiseFatal_dt (c : FatalCause) : (s.raiseFatal c).dt = s.dt := rfl
@[simp] theorem State.raiseFatal_st (c : FatalCause) : (s.raiseFatal c).st = s.st := rfl
@[simp] theorem State.raiseFatal_sp (c : FatalCause) : (s.raiseFatal c).sp = s.sp := rfl
@[simp] theorem State.raiseFatal_stack (c : FatalCause) : (s.raiseFatal c).stack = s.stack := rfl
@[simp] theorem State.raiseFatal_mem (c : FatalCause) : (s.raiseFatal c).mem = s.mem := rfl
@[simp] theorem State.raiseFatal_pix (c : FatalCause) : (s.raiseFatal c).pix = s.pix := rfl
@[simp] theorem State.raiseFatal_keys (c : FatalCause) : (s.raiseFatal c).keys = s.keys := rfl
@[simp] theorem State.raiseFatal_status (c : FatalCause) : (s.raiseFatal c).status = .fatal c := rfl
@[simp] theorem State.raiseFatal_prev (c : FatalCause) : (s.raiseFatal c).prev = s.prev := rfl
@[simp] theorem State.raiseFatal_soundEvents (c : FatalCause) : (s.raiseFatal c).soundEvents = s.soundEvents := rfl
@[simp] theorem State.raiseFatal_haltCheck (c : FatalCause) : (s.raiseFatal c).haltCheck = s.haltCheck := rfl
@[simp] theorem State.raiseFatal_font (c : FatalCause) : (s.raiseFatal c).font = s.font := rfl
@[simp] theorem State.raiseFatal_input (c : FatalCause) : (s.raiseFatal c).input = s.input := rfl
@[simp] theorem State.raiseFatal_script (c : FatalCause) : (s.raiseFatal c).script = s.script := rfl
@[simp] theorem State.raiseFatal_fresh (c : FatalCause) : (s.raiseFatal c).fresh = s.fresh := rfl

/-! ### advance -/

@[simp] theorem State.advance_v (w : Word) : (s.advance w).v = s.v := rfl
@[simp] theorem State.advance_i (w : Word) : (s.advance w).i = s.i := rfl
@[simp] theorem State.advance_pc (w : Word) : (s.advance w).pc = s.pc + 2 := rfl
@[simp] theorem State.advance_dt (w : Word) : (s.advance w).dt = s.dt := rfl
@[simp] theorem State.advance_st (w : Word) : (s.advance w).st = s.st := rfl
@[simp] theorem State.advance_sp (w : Word) : (s.advance w).sp = s.sp := rfl
@[simp] theorem State.advance_stack (w : Word) : (s.advance w).stack = s.stack := rfl
@[simp] theorem State.advance_mem (w : Word) : (s.advance w).mem = s.mem := rfl
@[simp] theorem State.advance_pix (w : Word) : (s.advance w).pix = s.pix := rfl
@[simp] theorem State.advance_keys (w : Word) : (s.advance w).keys = s.keys := rfl
@[simp] theorem State.advance_status (w : Word) : (s.advance w).status = s.status := rfl
@[simp] theorem State.advance_prev (w : Word) : (s.advance w).prev = some w := rfl
@[simp] theorem State.advance_soundEvents (w : Word) : (s.advance w).soundEvents = s.soundEvents := rfl
@[simp] theorem State.advance_haltCheck (w : Word) : (s.advance w).haltCheck = s.haltCheck := rfl
@[simp] theorem State.advance_font (w : Word) : (s.advance w).font = s.font := rfl
@[simp] theorem State.advance_input (w : Word) : (s.advance w).input = s.input := rfl
@[simp] theorem State.advance_script (w : Word) : (s.advance w).script = s.script := rfl
@[simp] theorem State.advance_fresh (w : Word) : (s.advance w).fresh = s.fresh := rfl

/-! ### tickDT -/

@[simp] theorem State.tickDT_v : (s.tickDT).v = s.v := rfl
@[simp] theorem State.tickDT_i : (s.tickDT).i = s.i := rfl
@[simp] theorem State.tickDT_pc : (s.tickDT).pc = s.pc := rfl
@[simp] theorem State.tickDT_dt : (s.tickDT).dt = tickDown s.dt := rfl
@[simp] theorem State.tickDT_st : (s.tickDT).st = s.st := rfl
@[simp] theorem State.tickDT_sp : (s.tickDT).sp = s.sp := rfl
@[simp] theorem State.tickDT_stack : (s.tickDT).stack = s.stack := rfl
@[simp] theorem State.tickDT_mem : (s.tickDT).mem = s.mem := rfl
@[simp] theorem State.tickDT_pix : (s.tickDT).pix = s.pix := rfl
@[simp] theorem State.tickDT_keys : (s.tickDT).keys = s.keys := rfl
@[simp] theorem State.tickDT_status : (s.tickDT).status = s.status := rfl
@[simp] theorem State.tickDT_prev : (s.tickDT).prev = s.prev := rfl
@[simp] theorem State.tickDT_soundEvents : (s.tickDT).soundEvents = s.soundEvents := rfl
@[simp] theorem State.tickDT_haltCheck : (s.tickDT).haltCheck = s.haltCheck := rfl
@[simp] theorem State.tickDT_font : (s.tickDT).font = s.font := rfl
@[simp] theorem State.tickDT_input : (s.tickDT).input = s.input := rfl
@[simp] theorem State.tickDT_script : (s.tickDT).script = s.script := rfl
@[simp] theorem State.tickDT_fresh : (s.tickDT).fresh = s.fresh := rfl

/-! ### tickST -/

@[simp] theorem State.tickST_v : (s.tickST).v = s.v := rfl
@[simp] theorem State.tickST_i : (s.tickST).i = s.i := rfl
@[simp] theorem State.tickST_pc : (s.tickST).pc = s.pc := rfl
@[simp] theorem State.tickST_dt : (s.tickST).dt = s.dt := rfl
@[simp] theorem State.tickST_st : (s.tickST).st = tickDown s.st := rfl
@[simp] theorem State.tickST_sp : (s.tickST).sp = s.sp := rfl
@[simp] theorem State.tickST_stack : (s.tickST).stack = s.stack := rfl
@[simp] theorem State.tickST_mem : (s.tickST).mem = s.mem := rfl
@[simp] theorem State.tickST_pix : (s.tickST).pix = s.pix := rfl
@[simp] theorem State.tickST_keys : (s.tickST).keys = s.keys := rfl
@[simp] theorem State.tickST_status : (s.tickST).status = s.status := rfl
@[simp] theorem State.tickST_prev : (s.tickST).prev = s.prev := rfl
@[simp] theorem State.tickST_soundEvents : (s.tickST).soundEvents = s.soundEvents + if s.st = 0 then 0 else 1 := rfl
@[simp] theorem State.tickST_haltCheck : (s.tickST).haltCheck = s.haltCheck := rfl
@[simp] theorem State.tickST_font : (s.tickST).font = s.font := rfl
@[simp] theorem State.tickST_input : (s.tickST).input = s.input := rfl
@[simp] theorem State.tickST_script : (s.tickST).script = s.script := rfl
@[simp] theorem State.tickST_fresh : (s.tickST).fresh = s.fresh := rfl

/-! ### loadRegs -/

@[simp] theorem State.loadRegs_i (x : Reg) (a : Nat) : (s.loadRegs x a).i = s.i := rfl
@[simp] theorem State.loadRegs_pc (x : Reg) (a : Nat) : (s.loadRegs x a).pc = s.pc := rfl
@[simp] theorem State.loadRegs_dt (x : Reg) (a : Nat) : (s.loadRegs x a).dt = s.dt := rfl
@[simp] theorem State.loadRegs_st (x : Reg) (a : Nat) : (s.loadRegs x a).st = s.st := rfl
@[simp] theorem State.loadRegs_sp (x : Reg) (a : Nat) : (s.loadRegs x a).sp = s.sp := rfl
@[simp] theorem State.loadRegs_stack (x : Reg) (a : Nat) : (s.loadRegs x a).stack = s.stack := rfl
@[simp] theorem State.loadRegs_mem (x : Reg) (a : Nat) : (s.loadRegs x a).mem = s.mem := rfl
@[simp] theorem State.loadRegs_pix (x : Reg) (a : Nat) : (s.loadRegs x a).pix = s.pix := rfl
@[simp] theorem State.loadRegs_keys (x : Reg) (a : Nat) : (s.loadRegs x a).keys = s.keys := rfl
@[simp] theorem State.loadRegs_status (x : Reg) (a : Nat) : (s.loadRegs x a).status = s.status := rfl
@[simp] theorem State.loadRegs_prev (x : Reg) (a : Nat) : (s.loadRegs x a).prev = s.prev := rfl
@[simp] theorem State.loadRegs_soundEvents (x : Reg) (a : Nat) : (s.loadRegs x a).soundEvents = s.soundEvents := rfl
@[simp] theorem State.loadRegs_haltCheck (x : Reg) (a : Nat) : (s.loadRegs x a).haltCheck = s.haltCheck := rfl
@[simp] theorem State.loadRegs_font (x : Reg) (a : Nat) : (s.loadRegs x a).font = s.font := rfl
@[simp] theorem State.loadRegs_input (x : Reg) (a : Nat) : (s.loadRegs x a).input = s.input := rfl
@[simp] theorem State.loadRegs_script (x : Reg) (a : Nat) : (s.loadRegs x a).script = s.script := rfl
@[simp] theorem State.loadRegs_fresh (x : Reg) (a : Nat) : (s.loadRegs x a).fresh = s.fresh := rfl

/-! ### takeInput -/

@[simp] theorem State.takeInput_v : (s.takeInput).v = s.v := rfl
@[simp] theorem State.takeInput_i : (s.takeInput).i = s.i := rfl
@[simp] theorem State.takeInput_pc : (s.takeInput).pc = s.pc := rfl
@[simp] theorem State.takeInput_dt : (s.takeInput).dt = ticksDown s.nextInput.ticksDT s.dt := rfl
@[simp] theorem State.takeInput_st : (s.takeInput).st = ticksDown s.nextInput.ticksST s.st := rfl
@[simp] theorem State.takeInput_sp : (s.takeInput).sp = s.sp := rfl
@[simp] theorem State.takeInput_stack : (s.takeInput).stack = s.stack := rfl
@[simp] theorem State.takeInput_mem : (s.takeInput).mem = s.mem := rfl
@[simp] theorem State.takeInput_pix : (s.takeInput).pix = s.pix := rfl
@[simp] theorem State.takeInput_keys : (s.takeInput).keys = s.nextInput.keys := rfl
@[simp] theorem State.takeInput_status : (s.takeInput).status = s.status := rfl
@[simp] theorem State.takeInput_prev : (s.takeInput).prev = s.prev := rfl
@[simp] theorem State.takeInput_soundEvents : (s.takeInput).soundEvents = s.soundEvents + soundOf s.nextInput.ticksST s.st := rfl
@[simp] theorem State.takeInput_haltCheck : (s.takeInput).haltCheck = s.haltCheck := rfl
@[simp] theorem State.takeInput_font : (s.takeInput).font = s.font := rfl
@[simp] theorem State.takeInput_input : (s.takeInput).input = s.nextInput := rfl
@[simp] theorem State.takeInput_script : (s.takeInput).script = s.script.tail := rfl
@[simp] theorem State.takeInput_fresh : (s.takeInput).fresh = s.fresh + 1 := rfl

end Sys2Proof.Machine
end

