-- ==== Sys2Proof/Laws/Display.lean ====
section
/-! SUPPORT. The display: what a toggle does, and what a whole sprite does, as a list of toggles (10_state R21,
44_display_keypad R131). -/
namespace Sys2Proof.Machine

/-- Two coordinates name the same pixel. -/
def samePixel (p q : Nat × Nat) : Prop := p.1 % 64 = q.1 % 64 ∧ p.2 % 32 = q.2 % 32

theorem Display.at_flip_self (d : Display) {a b a' b' : Nat} (h : samePixel (a, b) (a', b')) :
    (d.flip a b).at a' b' = !(d.at a' b') := by
  obtain ⟨h1, h2⟩ := h
  simp only at h1 h2
  simp [Display.at, Display.flip, Vector.get_eq_getElem, h1, h2]

theorem Display.at_flip_other (d : Display) {a b a' b' : Nat} (h : ¬ samePixel (a, b) (a', b')) :
    (d.flip a b).at a' b' = d.at a' b' := by
  simp only [samePixel, not_and] at h
  simp only [Display.at, Display.flip, Vector.get_eq_getElem, Vector.getElem_set]
  by_cases h1 : a % 64 = a' % 64
  · have h2 := h h1
    simp [h1, h2]
  · simp [h1]

/-- All the toggles of a list, in order. -/
def Display.toggles (l : List (Nat × Nat)) (acc : Display × Bool) : Display × Bool :=
  l.foldl (fun acc p => Display.toggle p.1 p.2 acc) acc

/-- Toggles of distinct pixels: each pixel of the list changes, no other does, and the answer is whether one of them
was lit before. -/
theorem Display.toggles_spec (l : List (Nat × Nat)) (hl : l.Pairwise fun p q => ¬ samePixel p q) (acc : Display × Bool) :
    (∀ a b, (∃ p ∈ l, samePixel p (a, b)) → (Display.toggles l acc).1.at a b = !(acc.1.at a b)) ∧
      (∀ a b, (¬ ∃ p ∈ l, samePixel p (a, b)) → (Display.toggles l acc).1.at a b = acc.1.at a b) ∧
      ((Display.toggles l acc).2 = true ↔ acc.2 = true ∨ ∃ p ∈ l, acc.1.at p.1 p.2 = true) := by
  induction l generalizing acc with
  | nil => simp [Display.toggles]
  | cons p rest ih =>
    obtain ⟨hp, hrest⟩ := List.pairwise_cons.1 hl
    obtain ⟨ih1, ih2, ih3⟩ := ih hrest (Display.toggle p.1 p.2 acc)
    have hstep : Display.toggles (p :: rest) acc = Display.toggles rest (Display.toggle p.1 p.2 acc) := rfl
    rw [hstep]
    refine ⟨fun a b hab => ?_, fun a b hab => ?_, ?_⟩
    · by_cases hpa : samePixel p (a, b)
      · have : ¬ ∃ q ∈ rest, samePixel q (a, b) := fun ⟨q, hq, hqa⟩ =>
          hp q hq ⟨hpa.1.trans hqa.1.symm, hpa.2.trans hqa.2.symm⟩
        rw [ih2 a b this]
        exact Display.at_flip_self _ hpa
      · obtain ⟨q, hq, hqa⟩ := hab
        have hq' : q ∈ rest := by
          rcases List.mem_cons.1 hq with rfl | h
          · exact absurd hqa hpa
          · exact h
        rw [ih1 a b ⟨q, hq', hqa⟩]
        exact congrArg _ (Display.at_flip_other _ hpa)
    · have h1 : ¬ samePixel p (a, b) := fun h => hab ⟨p, by simp, h⟩
      rw [ih2 a b fun ⟨q, hq, h⟩ => hab ⟨q, by simp [hq], h⟩]
      exact Display.at_flip_other _ h1
    · rw [ih3]
      have hsame : ∀ q ∈ rest, (Display.toggle p.1 p.2 acc).1.at q.1 q.2 = acc.1.at q.1 q.2 := fun q hq =>
        Display.at_flip_other _ (hp q hq)
      simp only [Display.toggle, Bool.or_eq_true, List.mem_cons, exists_eq_or_imp, or_assoc]
      refine or_congr_right (or_congr_right (exists_congr fun q => and_congr_right fun hq => ?_))
      exact Bool.coe_iff_coe.2 (hsame q hq)

/-- The toggles of one sprite row. -/
def rowToggles (cx cy : Nat) (b : Byte) : List (Nat × Nat) :=
  ((List.range 8).filter fun col => b.getLsbD (7 - col)).map fun col => (cx + col, cy)

/-- The toggles of a sprite. -/
def spriteToggles (cx : Nat) : Nat → List Byte → List (Nat × Nat)
  | _, [] => []
  | cy, b :: bs => rowToggles cx cy b ++ spriteToggles cx (cy + 1) bs

theorem Display.drawRow_eq (cx cy : Nat) (b : Byte) (acc : Display × Bool) :
    Display.drawRow cx cy b acc = Display.toggles (rowToggles cx cy b) acc := by
  simp only [Display.drawRow, Display.toggles, rowToggles, List.foldl_map, List.foldl_filter]

theorem Display.drawRows_eq (cx cy : Nat) (bs : List Byte) (acc : Display × Bool) :
    Display.drawRows cx cy bs acc = Display.toggles (spriteToggles cx cy bs) acc := by
  induction bs generalizing cy acc with
  | nil => rfl
  | cons b bs ih =>
    rw [Display.drawRows, ih, Display.drawRow_eq]
    simp [spriteToggles, Display.toggles, List.foldl_append]

/-- A toggle of a sprite is a 1 bit of one of its rows. -/
theorem mem_spriteToggles (cx cy : Nat) (bs : List Byte) (p : Nat × Nat) :
    p ∈ spriteToggles cx cy bs ↔
      ∃ row col, ∃ h : row < bs.length, col < 8 ∧ (bs[row]).getLsbD (7 - col) = true ∧ p = (cx + col, cy + row) := by
  induction bs generalizing cy with
  | nil => simp [spriteToggles]
  | cons b bs ih =>
    rw [spriteToggles, List.mem_append, ih]
    constructor
    · rintro (h | ⟨row, col, h, hc, hb, rfl⟩)
      · simp only [rowToggles, List.mem_map, List.mem_filter, List.mem_range] at h
        obtain ⟨col, ⟨hc, hb⟩, rfl⟩ := h
        exact ⟨0, col, by simp, hc, by simpa using hb, rfl⟩
      · exact ⟨row + 1, col, by simpa using h, hc, by simpa using hb, by simp [Nat.add_comm, Nat.add_left_comm]⟩
    · rintro ⟨row, col, h, hc, hb, rfl⟩
      cases row with
      | zero =>
        left
        simp only [rowToggles, List.mem_map, List.mem_filter, List.mem_range]
        exact ⟨col, ⟨hc, by simpa using hb⟩, rfl⟩
      | succ row =>
        exact .inr ⟨row, col, by simpa using h, hc, by simpa using hb, by simp [Nat.add_comm, Nat.add_left_comm]⟩

/-- No pixel is toggled twice: 8 columns are distinct modulo 64, at most 32 rows are distinct modulo 32. -/
theorem pairwise_spriteToggles (cx cy : Nat) (bs : List Byte) (h : bs.length ≤ 32) :
    (spriteToggles cx cy bs).Pairwise fun p q => ¬ samePixel p q := by
  induction bs generalizing cy with
  | nil => exact List.Pairwise.nil
  | cons b bs ih =>
    simp only [List.length_cons] at h
    rw [spriteToggles, List.pairwise_append]
    refine ⟨?_, ih _ (by omega), fun p hp q hq => ?_⟩
    · rw [rowToggles, List.pairwise_map]
      refine List.Pairwise.imp_of_mem ?_ (List.Pairwise.filter _ (List.pairwise_lt_range (n := 8)))
      intro i j hi hj hij
      simp only [List.mem_filter, List.mem_range] at hi hj
      simp only [samePixel]
      omega
    · simp only [rowToggles, List.mem_map, List.mem_filter, List.mem_range] at hp
      obtain ⟨col, -, rfl⟩ := hp
      obtain ⟨row, col', hr, -, -, rfl⟩ := (mem_spriteToggles _ _ _ _).1 hq
      simp only [samePixel]
      omega

/-- A pixel of the grid read by its natural coordinates. -/
theorem State.pixel_eq_at (s : State) (px : Fin 64) (py : Fin 32) : s.pixel px py = s.pix.at px.val py.val := by
  simp [State.pixel, Display.at, Nat.mod_eq_of_lt px.isLt, Nat.mod_eq_of_lt py.isLt]

theorem Display.at_blank (a b : Nat) : Display.blank.at a b = false := by
  simp [Display.at, Display.blank, Vector.get_eq_getElem]

@[simp] theorem State.length_peekBytes (s : State) (a n : Nat) : (s.peekBytes a n).length = n := by
  simp [State.peekBytes]

theorem State.getElem_peekBytes (s : State) (a n k : Nat) (h : k < (s.peekBytes a n).length) :
    (s.peekBytes a n)[k] = s.peek (a + k) := by
  simp [State.peekBytes]

end Sys2Proof.Machine
end

