-- ==== Sys2Proof/Laws/Encoding.lean ====
section
/-! SUPPORT. The four digits of an encoded word, and the words made of them (30_encoding R61, R62). -/
namespace Sys2Proof

@[simp] theorem regOf_fieldOf (r : Reg) : regOf (fieldOf r) = r := by
  ext
  simp only [regOf, fieldOf, BitVec.toNat_ofNat]
  have := r.isLt
  omega

@[simp] theorem fieldOf_regOf (d : BitVec 4) : fieldOf (regOf d) = d := by
  simp [regOf, fieldOf]

/-- A word is its four digits. -/
theorem word_of_digits (w : Word) : famOf w ++ digitX w ++ digitY w ++ digitN w = w := by
  refine BitVec.eq_of_getLsbD_eq fun i hi => ?_
  simp only [famOf, digitX, digitY, digitN, BitVec.getLsbD_append, BitVec.getLsbD_extractLsb']
  interval_cases i <;> simp

@[simp] theorem famOf_digits (f x y n : BitVec 4) : famOf (f ++ x ++ y ++ n) = f := by
  refine BitVec.eq_of_getLsbD_eq fun i hi => ?_
  simp only [famOf, BitVec.getLsbD_append, BitVec.getLsbD_extractLsb']
  interval_cases i <;> simp

@[simp] theorem digitX_digits (f x y n : BitVec 4) : digitX (f ++ x ++ y ++ n) = x := by
  refine BitVec.eq_of_getLsbD_eq fun i hi => ?_
  simp only [digitX, BitVec.getLsbD_append, BitVec.getLsbD_extractLsb']
  interval_cases i <;> simp

@[simp] theorem digitY_digits (f x y n : BitVec 4) : digitY (f ++ x ++ y ++ n) = y := by
  refine BitVec.eq_of_getLsbD_eq fun i hi => ?_
  simp only [digitY, BitVec.getLsbD_append, BitVec.getLsbD_extractLsb']
  interval_cases i <;> simp

@[simp] theorem digitN_digits (f x y n : BitVec 4) : digitN (f ++ x ++ y ++ n) = n := by
  refine BitVec.eq_of_getLsbD_eq fun i hi => ?_
  simp only [digitN, BitVec.getLsbD_append, BitVec.getLsbD_extractLsb']
  interval_cases i <;> simp

/-- A byte is its two digits. -/
theorem byte_of_digits (b : Byte) : ∃ hi lo : BitVec 4, b = hi ++ lo := by
  refine ⟨b.extractLsb' 4 4, b.extractLsb' 0 4, BitVec.eq_of_getLsbD_eq fun i hi => ?_⟩
  simp only [BitVec.getLsbD_append, BitVec.getLsbD_extractLsb']
  interval_cases i <;> simp

/-- A 12-bit address is its three digits. -/
theorem addr_of_digits (a : BitVec 12) : ∃ x y n : BitVec 4, a = x ++ y ++ n := by
  refine ⟨a.extractLsb' 8 4, a.extractLsb' 4 4, a.extractLsb' 0 4, BitVec.eq_of_getLsbD_eq fun i hi => ?_⟩
  simp only [BitVec.getLsbD_append, BitVec.getLsbD_extractLsb']
  interval_cases i <;> simp

/-- Joining digits does not depend on the grouping: the formats of 30_encoding R62 as four digits. -/
theorem digits_assoc_two (f x hi lo : BitVec 4) : f ++ x ++ (hi ++ lo) = f ++ x ++ hi ++ lo := by
  refine BitVec.eq_of_getLsbD_eq fun i hi => ?_
  simp only [BitVec.getLsbD_append]
  interval_cases i <;> simp

theorem digits_assoc_three (f x y n : BitVec 4) : f ++ (x ++ y ++ n) = f ++ x ++ y ++ n := by
  refine BitVec.eq_of_getLsbD_eq fun i hi => ?_
  simp only [BitVec.getLsbD_append]
  interval_cases i <;> simp

/-- The low three digits of a word, as the one address they are. -/
@[simp] theorem addr_of_word_digits (f x y n : BitVec 4) : (f ++ x ++ y ++ n).extractLsb' 0 12 = x ++ y ++ n := by
  refine BitVec.eq_of_getLsbD_eq fun i hi => ?_
  simp only [BitVec.getLsbD_extractLsb', BitVec.getLsbD_append]
  rcases (show i < 4 ∨ (4 ≤ i ∧ i < 8) ∨ (8 ≤ i ∧ i < 12) by omega) with h | h | h <;>
    simp [hi, h] <;> split_ifs <;> first | rfl | omega

/-- Decoding a word given by its digits. -/
theorem decodeWord_digits (f x y n : BitVec 4) : decodeWord (f ++ x ++ y ++ n) = decodeDigits f x y n := by
  simp [decodeWord]

/-- The formats of 30_encoding R62 as four digits. -/
theorem fmtNNN_digits (f x y n : BitVec 4) : fmtNNN f (x ++ y ++ n) = f ++ x ++ y ++ n := digits_assoc_three _ _ _ _

theorem fmtXKK_digits (f hi lo : BitVec 4) (x : Reg) : fmtXKK f x (hi ++ lo) = f ++ fieldOf x ++ hi ++ lo :=
  digits_assoc_two _ _ _ _

theorem fmtX_digits (f hi lo : BitVec 4) (x : Reg) : fmtX f x (hi ++ lo) = f ++ fieldOf x ++ hi ++ lo :=
  digits_assoc_two _ _ _ _

/-- A mask of four digits acts digit by digit. -/
theorem and_digits (f x y n a b c d : BitVec 4) :
    (f ++ x ++ y ++ n) &&& (a ++ b ++ c ++ d) = (f &&& a) ++ (x &&& b) ++ (y &&& c) ++ (n &&& d) := by
  refine BitVec.eq_of_getLsbD_eq fun i hi => ?_
  simp only [BitVec.getLsbD_append, BitVec.getLsbD_and]
  interval_cases i <;> simp

/-- The word two bytes hold gives the bytes back. -/
@[simp] theorem hiByte_wordOfBytes (hi lo : Byte) : hiByte (wordOfBytes hi lo) = hi := by
  refine BitVec.eq_of_getLsbD_eq fun i hi => ?_
  simp only [hiByte, wordOfBytes, BitVec.getLsbD_append, BitVec.getLsbD_extractLsb']
  interval_cases i <;> simp

@[simp] theorem loByte_wordOfBytes (hi lo : Byte) : loByte (wordOfBytes hi lo) = lo := by
  refine BitVec.eq_of_getLsbD_eq fun i hi => ?_
  simp only [loByte, wordOfBytes, BitVec.getLsbD_append, BitVec.getLsbD_extractLsb']
  interval_cases i <;> simp

/-- The two bytes of a word make the word. -/
@[simp] theorem wordOfBytes_bytes (w : Word) : wordOfBytes (hiByte w) (loByte w) = w := by
  refine BitVec.eq_of_getLsbD_eq fun i hi => ?_
  simp only [hiByte, loByte, wordOfBytes, BitVec.getLsbD_append, BitVec.getLsbD_extractLsb']
  interval_cases i <;> simp

end Sys2Proof
end

