-- ==== Sys2Proof/Laws/Memory.lean ====
section
/-! SUPPORT. Memory: a read after a write, and every operation keeps the canonical form. -/
namespace Sys2Proof.Machine

variable {font : Vector Byte 80} {m : List Host.Cell} {a b : Nat} {u : Byte}

/-- Every address of the list is at least `a` away upward: all entries lie above `a`. -/
theorem Memory.get_above (h : ∀ c ∈ m, a < c.1) : Memory.get font m a = Memory.background font a := by
  induction m with
  | nil => rfl
  | cons c rest ih =>
    obtain ⟨k, w⟩ := c
    have hk : a < k := h (k, w) (by simp)
    simp only [Memory.get]
    rw [if_neg (by omega), ih fun c hc => h c (by simp [hc])]

theorem Memory.get_cons_self (h : ∀ c ∈ m, a < c.1) : Memory.get font (Memory.cons font a u m) a = u := by
  unfold Memory.cons
  split
  · rename_i hu
    rw [Memory.get_above h, hu]
  · simp [Memory.get]

theorem Memory.get_cons_other (hab : b ≠ a) :
    Memory.get font (Memory.cons font a u m) b = Memory.get font m b := by
  unfold Memory.cons
  split
  · rfl
  · simp [Memory.get, hab]

/-- A write leaves the read of every other address alone. -/
theorem Memory.get_put_other (hab : b ≠ a) : Memory.get font (Memory.put font a u m) b = Memory.get font m b := by
  induction m with
  | nil => exact Memory.get_cons_other hab
  | cons c rest ih =>
    obtain ⟨k, w⟩ := c
    unfold Memory.put
    split
    · exact Memory.get_cons_other hab
    · split
      · rename_i hak
        rw [Memory.get_cons_other hab]
        simp [Memory.get, hak ▸ hab]
      · simp [Memory.get, ih]

/-- In the canonical form a read after a write to the same address gives the byte written. -/
theorem Memory.get_put_self (h : Memory.wf font m) : Memory.get font (Memory.put font a u m) a = u := by
  induction m with
  | nil => exact Memory.get_cons_self (by simp)
  | cons c rest ih =>
    obtain ⟨k, w⟩ := c
    obtain ⟨hp, hc⟩ := h
    rw [List.pairwise_cons] at hp
    unfold Memory.put
    split
    · rename_i hak
      refine Memory.get_cons_self fun c hc => ?_
      rcases List.mem_cons.1 hc with rfl | hc
      · exact hak
      · exact Nat.lt_trans hak (hp.1 c hc)
    · split
      · rename_i hak
        subst hak
        exact Memory.get_cons_self hp.1
      · rename_i hak
        simp only [Memory.get, hak, if_false]
        exact ih ⟨hp.2, fun c h' => hc c (by simp [h'])⟩

theorem Memory.mem_cons_cases {c : Host.Cell} (h : c ∈ Memory.cons font a u m) :
    (c = (a, u) ∧ u ≠ Memory.background font a) ∨ c ∈ m := by
  unfold Memory.cons at h
  split at h
  · exact .inr h
  · rename_i hu
    rcases List.mem_cons.1 h with rfl | h
    · exact .inl ⟨rfl, hu⟩
    · exact .inr h

/-- Every entry after a write is the written one, which is not the background, or an old one. -/
theorem Memory.mem_put_cases {c : Host.Cell} (h : c ∈ Memory.put font a u m) :
    (c = (a, u) ∧ u ≠ Memory.background font a) ∨ c ∈ m := by
  induction m with
  | nil => exact Memory.mem_cons_cases h
  | cons d rest ih =>
    obtain ⟨k, w⟩ := d
    unfold Memory.put at h
    split at h
    · exact Memory.mem_cons_cases h
    · split at h
      · exact (Memory.mem_cons_cases h).imp_right (List.mem_cons_of_mem _)
      · rcases List.mem_cons.1 h with rfl | h
        · exact .inr (by simp)
        · exact (ih h).imp_right (List.mem_cons_of_mem _)

theorem Memory.pairwise_cons_of (hp : m.Pairwise fun c d => c.1 < d.1) (h : ∀ c ∈ m, a < c.1) :
    (Memory.cons font a u m).Pairwise fun c d => c.1 < d.1 := by
  unfold Memory.cons
  split
  · exact hp
  · exact List.pairwise_cons.2 ⟨h, hp⟩

theorem Memory.pairwise_put (hp : m.Pairwise fun c d => c.1 < d.1) :
    (Memory.put font a u m).Pairwise fun c d => c.1 < d.1 := by
  induction m with
  | nil => exact Memory.pairwise_cons_of List.Pairwise.nil (by simp)
  | cons d rest ih =>
    obtain ⟨k, w⟩ := d
    have hp' := List.pairwise_cons.1 hp
    unfold Memory.put
    split
    · rename_i hak
      refine Memory.pairwise_cons_of hp fun c hc => ?_
      rcases List.mem_cons.1 hc with rfl | hc
      · exact hak
      · exact Nat.lt_trans hak (hp'.1 c hc)
    · split
      · rename_i hak
        subst hak
        exact Memory.pairwise_cons_of hp'.2 hp'.1
      · rename_i hlt hne
        refine List.pairwise_cons.2 ⟨fun c hc => ?_, ih hp'.2⟩
        rcases Memory.mem_put_cases hc with ⟨rfl, -⟩ | hc
        · exact Nat.lt_of_le_of_ne (Nat.le_of_not_lt hlt) fun h => hne h.symm
        · exact hp'.1 c hc

/-- A write at an address of the machine keeps the canonical form. -/
theorem Memory.wf_put (h : Memory.wf font m) (ha : a < Config.memSize) : Memory.wf font (Memory.put font a u m) := by
  refine ⟨Memory.pairwise_put h.1, fun c hc => ?_⟩
  rcases Memory.mem_put_cases hc with ⟨rfl, hu⟩ | hc
  · exact ⟨ha, hu⟩
  · exact h.2 c hc

/-! ### On states -/

theorem State.peek_poke_self (s : State) (h : Memory.wf s.font s.mem) : (s.poke a u).peek a = u :=
  Memory.get_put_self h

theorem State.peek_poke_other (s : State) (hab : b ≠ a) : (s.poke a u).peek b = s.peek b :=
  Memory.get_put_other hab

/-- Storing bytes changes memory only. -/
theorem State.pokeBytes_eq (us : List Byte) (s : State) :
    s.pokeBytes a us = { s with mem := (s.pokeBytes a us).mem } := by
  induction us generalizing a s with
  | nil => rfl
  | cons u rest ih =>
    rw [State.pokeBytes, ih]
    rfl

/-- The memory after storing bytes depends on the memory before and its background alone. -/
theorem State.pokeBytes_mem_congr (us : List Byte) (s t : State) (hf : t.font = s.font) (hm : t.mem = s.mem) :
    (t.pokeBytes a us).mem = (s.pokeBytes a us).mem := by
  induction us generalizing a s t with
  | nil => exact hm
  | cons u rest ih => exact ih (s.poke a u) (t.poke a u) hf (by simp [hf, hm])

/-- Storing bytes leaves every address outside them alone. -/
theorem State.peek_pokeBytes_other (us : List Byte) (s : State) (h : b < a ∨ a + us.length ≤ b) :
    (s.pokeBytes a us).peek b = s.peek b := by
  induction us generalizing a s with
  | nil => rfl
  | cons u rest ih =>
    simp only [List.length_cons] at h
    rw [State.pokeBytes, ih _ (by omega), State.peek_poke_other _ (by omega)]

/-- Storing bytes in range keeps the canonical form. -/
theorem State.wf_pokeBytes (us : List Byte) (s : State) (h : Memory.wf s.font s.mem)
    (hr : a + us.length ≤ Config.memSize) : Memory.wf (s.pokeBytes a us).font (s.pokeBytes a us).mem := by
  induction us generalizing a s with
  | nil => exact h
  | cons u rest ih =>
    simp only [List.length_cons] at hr
    exact ih (s.poke a u) (Memory.wf_put h (by simp only [Config.memSize] at *; omega)) (by omega)

/-- In the canonical form each stored byte is read back. -/
theorem State.peek_pokeBytes_self (us : List Byte) (s : State) (h : Memory.wf s.font s.mem)
    (hr : a + us.length ≤ Config.memSize) (k : Nat) (hk : k < us.length) :
    (s.pokeBytes a us).peek (a + k) = us[k] := by
  induction us generalizing a s k with
  | nil => simp at hk
  | cons u rest ih =>
    simp only [List.length_cons] at hr hk
    have hwf : Memory.wf (s.poke a u).font (s.poke a u).mem :=
      Memory.wf_put h (by simp only [Config.memSize] at *; omega)
    rw [State.pokeBytes]
    cases k with
    | zero =>
      rw [State.peek_pokeBytes_other _ _ (by omega)]
      simpa using State.peek_poke_self s h
    | succ k =>
      have := ih (a := a + 1) (s.poke a u) hwf (by omega) k (by omega)
      rw [show a + (k + 1) = a + 1 + k by omega, this]
      simp

@[simp] theorem State.length_regsTo (s : State) (x : Reg) : (s.regsTo x).length = x.val + 1 := by
  have := x.isLt
  simp only [State.regsTo, List.length_take, Vector.length_toList]
  omega

@[simp] theorem length_bcdDigits (u : Byte) : (bcdDigits u).length = 3 := rfl

theorem State.getElem_regsTo (s : State) (x r : Reg) (h : r ≤ x) :
    (s.regsTo x)[r.val]'(by rw [State.length_regsTo]; have := h; rw [Fin.le_def] at this; omega) = s.reg r := by
  simp [State.regsTo, State.reg, Vector.get_eq_getElem]

/-! ### The guarded accesses (20_memory R41 to R44) -/

theorem memRead_ok {kind : AccessKind} (s : State) (h : a < 4096) : memRead kind a s = .ok (s.peek a) := if_pos h

theorem memRead_error {kind : AccessKind} (s : State) (h : ¬ a < 4096) :
    memRead kind a s = .error (.memRange a kind) := if_neg h

theorem memReadWord_ok (s : State) (h : a + 1 < 4096) :
    memReadWord a s = .ok (wordOfBytes (s.peek a) (s.peek (a + 1))) := by
  simp [memReadWord, memRead_ok s (show a < 4096 by omega), memRead_ok s h]

theorem memReadWord_error (s : State) (h : ¬ a + 1 < 4096) :
    memReadWord a s = .error (.memRange (max a 4096) .fetch) := by
  unfold memReadWord
  by_cases h1 : a < 4096
  · obtain rfl : a = 4095 := by omega
    rw [memRead_ok s h1, memRead_error s h]
    rfl
  · rw [memRead_error s h1]
    simp only []
    congr 2
    omega

/-- A word fetch answers the word at the address, or the lowest address out of range. -/
theorem memReadWord_cases (s : State) :
    (a + 1 < 4096 ∧ memReadWord a s = .ok (wordOfBytes (s.peek a) (s.peek (a + 1)))) ∨
      (¬ a + 1 < 4096 ∧ memReadWord a s = .error (.memRange (max a 4096) .fetch)) := by
  by_cases h : a + 1 < 4096
  · exact .inl ⟨h, memReadWord_ok s h⟩
  · exact .inr ⟨h, memReadWord_error s h⟩

end Sys2Proof.Machine
end

