-- ==== Sys2Proof/Laws/Regs.lean ====
section
/-! SUPPORT. What the register, flag, stack and program counter operations do, once each. -/
namespace Sys2Proof.Machine

/-! ### Vectors read by number -/

theorem vector_get_set {α : Type} {n : Nat} (v : Vector α n) (q r : Fin n) (b : α) :
    (v.set r.val b r.isLt).get q = if q = r then b else v.get q := by
  simp only [Vector.get_eq_getElem, Vector.getElem_set, Fin.ext_iff, eq_comm]

/-! ### General registers -/

@[simp] theorem State.reg_setReg (s : State) (r q : Reg) (b : Byte) :
    (s.setReg r b).reg q = if q = r then b else s.reg q := vector_get_set s.v q r b

@[simp] theorem State.reg_setRegFlag (s : State) (x q : Reg) (b f : Byte) :
    (s.setRegFlag x b f).reg q = if q = Reg.vf then f else if q = x then b else s.reg q := by
  simp [State.setRegFlag]

@[simp] theorem State.reg_loadRegs (s : State) (x q : Reg) (a : Nat) :
    (s.loadRegs x a).reg q = if q ≤ x then s.peek (a + q.val) else s.reg q := by
  simp [State.loadRegs, State.reg]

theorem flagByte_cases (b : Bool) : flagByte b = 0 ∨ flagByte b = 1 := by cases b <;> simp [flagByte]

/-! ### Skipping -/

theorem State.skipIf_true (s : State) : s.skipIf true = s.skip := rfl

theorem State.skipIf_false (s : State) : s.skipIf false = s := rfl

/-! ### Call stack -/

/-- A push fails exactly on the full stack; else it writes the free slot and raises `SP` by one. -/
theorem State.push_free (s : State) (j : Fin 16) (h : s.sp.val = j.val) :
    s.push = some { s with stack := s.stack.set j.val s.pc j.isLt, sp := ⟨j.val + 1, Nat.succ_lt_succ j.isLt⟩ } := by
  have hlt : s.sp.val < Config.stackDepth := h ▸ j.isLt
  simp only [State.push, hlt, dite_true]
  congr 3
  simp [h]

theorem State.push_full (s : State) (h : s.sp.val = 16) : s.push = none := by
  simp [State.push, h]

/-- A pop fails exactly on the empty stack; else it lowers `SP` by one and reads the slot. -/
theorem State.pop_used (s : State) (j : Fin 16) (h : s.sp.val = j.val + 1) :
    s.pop = some { s with sp := ⟨j.val, Nat.lt_succ_of_lt j.isLt⟩, pc := s.stack.get j } := by
  obtain ⟨n, hn⟩ : ∃ n, n = s.sp := ⟨_, rfl⟩
  unfold State.pop
  split
  · rename_i h0
    rw [h0] at h
    simp at h
  · rename_i n h' h1
    rw [h1] at h
    have hj : n = j.val := by simpa using h
    subst hj
    rfl

theorem State.pop_empty (s : State) (h : s.sp = 0) : s.pop = none := by
  unfold State.pop
  split
  · rfl
  · rename_i n h' h1
    rw [h] at h1
    exact absurd (congrArg Fin.val h1) (by simp)

end Sys2Proof.Machine
end

