-- ==== Sys2Proof/Laws/Timers.lean ====
section
/-! SUPPORT. Timers, sound events, keys and the outside world's input (60_exceptions R161 to R165). -/
namespace Sys2Proof.Machine

theorem toNat_tickDown (t : Byte) : (tickDown t).toNat = t.toNat - 1 := by
  unfold tickDown
  split
  · rename_i h
    subst h
    rfl
  · rename_i h
    have : t.toNat ≠ 0 := fun h0 => h (BitVec.eq_of_toNat_eq (by simpa using h0))
    have := t.isLt
    rw [BitVec.toNat_sub]
    have : (1 : Byte).toNat = 1 := rfl
    omega

/-- A timer saturates at 0. -/
theorem toNat_ticksDown (n : Nat) (t : Byte) : (ticksDown n t).toNat = t.toNat - n := by
  induction n generalizing t with
  | zero => rfl
  | succ n ih =>
    rw [ticksDown, ih, toNat_tickDown]
    omega

/-- `n` ticks emit one event each while `ST` is positive. -/
theorem soundOf_eq (n : Nat) (t : Byte) : soundOf n t = min n t.toNat := by
  induction n generalizing t with
  | zero => simp [soundOf]
  | succ n ih =>
    rw [soundOf, ih, toNat_tickDown]
    by_cases h : t = 0
    · subst h
      simp
    · have : t.toNat ≠ 0 := fun h0 => h (BitVec.eq_of_toNat_eq (by simpa using h0))
      rw [if_neg h]
      omega

theorem State.keyPressed_low (s : State) (k : Byte) (h : k.toNat < 16) :
    s.keyPressed k = s.keys.get ⟨k.toNat, h⟩ := dif_pos h

theorem State.keyPressed_high (s : State) (k : Byte) (h : ¬ k.toNat < 16) : s.keyPressed k = s.input.keyAnswer :=
  dif_neg h

/-- A key delivery acts exactly while an `Fx0A` waits and the input brings a key. -/
theorem State.deliverKey_some (s : State) (x : Reg) (k : Key) (h : s.status = .waitKey x)
    (hk : s.input.delivery = some k) :
    s.deliverKey = { s.setReg x (BitVec.ofNat 8 k.val) with status := .running } := by
  simp [State.deliverKey, h, hk]

theorem State.deliverKey_none (s : State) (hk : s.input.delivery = none) : s.deliverKey = s := by
  unfold State.deliverKey
  split
  · rename_i h
    rw [hk] at h
    cases h
  · rfl

end Sys2Proof.Machine
end

