-- ==== Sys2Proof/Laws/Frames.lean ====
section
/-! SUPPORT. For each shared operation, what it leaves alone (40_execution_cycle R85), and the cases of the operations
that can fail. -/
namespace Sys2Proof.Machine

theorem Frame.refl (changed : Part → Prop) (s : State) : Frame changed s s := fun p _ => by cases p <;> rfl

theorem Frame.mono {c d : Part → Prop} {s t : State} (h : Frame c s t) (hcd : ∀ p, c p → d p) : Frame d s t :=
  fun p hp => h p fun hc => hp (hcd p hc)

theorem Frame.trans {c : Part → Prop} {s t u : State} (h : Frame c s t) (k : Frame c t u) : Frame c s u := by
  intro p hp
  have h1 := h p hp
  have h2 := k p hp
  cases p <;> exact h2.trans h1

theorem frame_setReg (s : State) (r : Reg) (b : Byte) : Frame (fun p => p = .reg r) s (s.setReg r b) := by
  intro p hp
  cases p
  case reg q => exact (State.reg_setReg s r q b).trans (if_neg fun h => hp (congrArg Part.reg h))
  all_goals rfl

theorem frame_setRegFlag (s : State) (x : Reg) (b f : Byte) :
    Frame (fun p => p = .reg x ∨ p = .reg Reg.vf) s (s.setRegFlag x b f) :=
  Frame.trans (t := s.setReg x b) ((frame_setReg s x b).mono fun _ h => Or.inl h)
    ((frame_setReg (s.setReg x b) Reg.vf f).mono fun _ h => Or.inr h)

theorem frame_loadRegs (s : State) (x : Reg) (a : Nat) :
    Frame (fun p => ∃ r, p = .reg r ∧ r ≤ x) s (s.loadRegs x a) := by
  intro p hp
  cases p
  case reg q =>
    have hq : ¬ q ≤ x := fun h => hp ⟨q, rfl, h⟩
    simp [Part.same, hq]
  all_goals simp [Part.same, State.pixel, State.peek]

theorem frame_setPc (s : State) (w : Word) : Frame (fun p => p = .pc) s (s.setPc w) := by
  intro p hp
  cases p <;> first | rfl | exact absurd rfl hp

theorem frame_skipIf (s : State) (c : Bool) : Frame (fun p => p = .pc) s (s.skipIf c) := by
  cases c
  · exact Frame.refl _ s
  · exact frame_setPc s _

theorem frame_raiseFatal (s : State) (c : FatalCause) : Frame (fun p => p = .status) s (s.raiseFatal c) := by
  intro p hp
  cases p <;> first | rfl | exact absurd rfl hp

theorem frame_pokeBytes (s : State) (a : Nat) (us : List Byte) :
    Frame (fun p => ∃ b, p = .byte b ∧ a ≤ b ∧ b < a + us.length) s (s.pokeBytes a us) := by
  intro p hp
  cases p
  case byte b =>
    refine State.peek_pokeBytes_other us s ?_
    by_contra h
    exact hp ⟨b, rfl, by omega, by omega⟩
  all_goals
    rw [State.pokeBytes_eq]
    rfl

theorem frame_takeInput (s : State) : Frame Part.outside s s.takeInput := by
  intro p hp
  cases p <;> first | rfl | exact absurd trivial hp

theorem frame_advance (s : State) (w : Word) : Frame (fun p => p = .prev ∨ p = .pc) s (s.advance w) := by
  intro p hp
  cases p <;> first | rfl | exact absurd (.inl rfl) hp | exact absurd (.inr rfl) hp

/-! ### The operations that can fail, case by case -/

/-- A skip either changes nothing or adds 2 to `PC`. -/
theorem State.skipIf_cases (s : State) (c : Bool) : s.skipIf c = s ∨ s.skipIf c = s.skip := by
  cases c
  · exact .inl rfl
  · exact .inr rfl

/-- A pop fails on the empty stack; else it lowers `SP` by one and takes `PC` from the slot. -/
theorem State.pop_cases (s : State) :
    (s.sp.val = 0 ∧ s.pop = none) ∨
      ∃ j : Fin 16, s.sp.val = j.val + 1 ∧
        s.pop = some { s with sp := ⟨j.val, Nat.lt_succ_of_lt j.isLt⟩, pc := s.stack.get j } := by
  by_cases h : s.sp.val = 0
  · exact .inl ⟨h, State.pop_empty s (Fin.ext h)⟩
  · have hlt := s.sp.isLt
    have hj : s.sp.val = (s.sp.val - 1) + 1 := by omega
    exact .inr ⟨⟨s.sp.val - 1, by omega⟩, hj, State.pop_used s _ hj⟩

/-- A push fails on the full stack; else it writes the free slot and raises `SP` by one. -/
theorem State.push_cases (s : State) :
    (s.sp.val = 16 ∧ s.push = none) ∨
      ∃ j : Fin 16, s.sp.val = j.val ∧
        s.push = some { s with stack := s.stack.set j.val s.pc j.isLt, sp := ⟨j.val + 1, Nat.succ_lt_succ j.isLt⟩ } := by
  by_cases h : s.sp.val = 16
  · exact .inl ⟨h, State.push_full s h⟩
  · have hlt := s.sp.isLt
    exact .inr ⟨⟨s.sp.val, by omega⟩, rfl, State.push_free s _ rfl⟩

/-- What `inRange` says, in numbers. -/
theorem inRange_iff (a len : Nat) : inRange a len = true ↔ len = 0 ∨ a + len ≤ 4096 := by
  simp [inRange, Config.memSize]

end Sys2Proof.Machine
end

