-- ==== Sys2Proof/Laws/PerInstr.lean ====
section
/-! SUPPORT. Per-instruction facts about the syntax: the word of an instruction lies in its row of 30_encoding R64. -/
namespace Sys2Proof

theorem fmtNNN_family (f : BitVec 4) (nnn : BitVec 12) : fmtNNN f nnn &&& 0xF000 = f ++ 0#12 := by
  obtain ⟨x, y, n, rfl⟩ := addr_of_digits nnn
  rw [fmtNNN, digits_assoc_three, show (0xF000 : Word) = 0xF#4 ++ 0#4 ++ 0#4 ++ 0#4 from rfl, and_digits]
  simp only [BitVec.and_zero]
  revert f
  decide

theorem fmtXKK_family (f : BitVec 4) (x : Reg) (kk : Byte) : fmtXKK f x kk &&& 0xF000 = f ++ 0#12 := by
  obtain ⟨hi, lo, rfl⟩ := byte_of_digits kk
  rw [fmtXKK, digits_assoc_two, show (0xF000 : Word) = 0xF#4 ++ 0#4 ++ 0#4 ++ 0#4 from rfl, and_digits]
  simp only [BitVec.and_zero]
  revert f
  decide

theorem fmtXYN_family (f : BitVec 4) (x y : Reg) (n : BitVec 4) : fmtXYN f x y n &&& 0xF000 = f ++ 0#12 := by
  rw [fmtXYN, show (0xF000 : Word) = 0xF#4 ++ 0#4 ++ 0#4 ++ 0#4 from rfl, and_digits]
  simp only [BitVec.and_zero]
  revert f
  decide

theorem fmtXYN_ends (f : BitVec 4) (x y : Reg) (n : BitVec 4) : fmtXYN f x y n &&& 0xF00F = f ++ 0#8 ++ n := by
  rw [fmtXYN, show (0xF00F : Word) = 0xF#4 ++ 0#4 ++ 0#4 ++ 0xF#4 from rfl, and_digits]
  simp only [BitVec.and_zero]
  revert f n
  decide

theorem fmtX_code (f : BitVec 4) (x : Reg) (code : Byte) : fmtX f x code &&& 0xF0FF = f ++ 0#4 ++ code := by
  obtain ⟨hi, lo, rfl⟩ := byte_of_digits code
  rw [fmtX, digits_assoc_two, show (0xF0FF : Word) = 0xF#4 ++ 0#4 ++ 0xF#4 ++ 0xF#4 from rfl, and_digits,
    digits_assoc_two]
  have hf : ∀ d : BitVec 4, d &&& 0xF#4 = d := by decide
  simp only [BitVec.and_zero, hf]

namespace Laws.EncodedRow

/-- The instruction's word selects the row of the table that its constructor stands for (30_encoding R64); an ignored
word has no row. -/
def Statement (i : Instr) : Prop := ∀ k, i.rowNumber = some k → ∃ r ∈ rows, r.number = k ∧ r.selects (encode i) = true

/-- A row of the table that selects the word proves the statement. -/
theorem of_row {i : Instr} (r : Row) (hn : i.rowNumber = some r.number) (hr : r ∈ rows)
    (hs : encode i &&& r.mask = r.value) : Statement i := by
  intro k hk
  rw [hn] at hk
  exact ⟨r, hr, by simpa using hk, by simp [Row.selects, hs]⟩

theorem cls : Statement .cls :=
  of_row ⟨1, 0xFFFF, 0x00E0⟩ rfl (by decide) (rfl)

theorem ret : Statement .ret :=
  of_row ⟨2, 0xFFFF, 0x00EE⟩ rfl (by decide) (rfl)

theorem jp (nnn : BitVec 12) : Statement (.jp nnn) :=
  of_row ⟨3, 0xF000, 0x1000⟩ rfl (by decide) ((fmtNNN_family _ _).trans rfl)

theorem call (nnn : BitVec 12) : Statement (.call nnn) :=
  of_row ⟨4, 0xF000, 0x2000⟩ rfl (by decide) ((fmtNNN_family _ _).trans rfl)

theorem seVxKk (x : Reg) (kk : Byte) : Statement (.seVxKk x kk) :=
  of_row ⟨5, 0xF000, 0x3000⟩ rfl (by decide) ((fmtXKK_family _ _ _).trans rfl)

theorem sneVxKk (x : Reg) (kk : Byte) : Statement (.sneVxKk x kk) :=
  of_row ⟨6, 0xF000, 0x4000⟩ rfl (by decide) ((fmtXKK_family _ _ _).trans rfl)

theorem seVxVy (x y : Reg) : Statement (.seVxVy x y) :=
  of_row ⟨7, 0xF00F, 0x5000⟩ rfl (by decide) ((fmtXYN_ends _ _ _ _).trans rfl)

theorem ldVxKk (x : Reg) (kk : Byte) : Statement (.ldVxKk x kk) :=
  of_row ⟨8, 0xF000, 0x6000⟩ rfl (by decide) ((fmtXKK_family _ _ _).trans rfl)

theorem addVxKk (x : Reg) (kk : Byte) : Statement (.addVxKk x kk) :=
  of_row ⟨9, 0xF000, 0x7000⟩ rfl (by decide) ((fmtXKK_family _ _ _).trans rfl)

theorem ldVxVy (x y : Reg) : Statement (.ldVxVy x y) :=
  of_row ⟨10, 0xF00F, 0x8000⟩ rfl (by decide) ((fmtXYN_ends _ _ _ _).trans rfl)

theorem orVxVy (x y : Reg) : Statement (.orVxVy x y) :=
  of_row ⟨11, 0xF00F, 0x8001⟩ rfl (by decide) ((fmtXYN_ends _ _ _ _).trans rfl)

theorem andVxVy (x y : Reg) : Statement (.andVxVy x y) :=
  of_row ⟨12, 0xF00F, 0x8002⟩ rfl (by decide) ((fmtXYN_ends _ _ _ _).trans rfl)

theorem xorVxVy (x y : Reg) : Statement (.xorVxVy x y) :=
  of_row ⟨13, 0xF00F, 0x8003⟩ rfl (by decide) ((fmtXYN_ends _ _ _ _).trans rfl)

theorem addVxVy (x y : Reg) : Statement (.addVxVy x y) :=
  of_row ⟨14, 0xF00F, 0x8004⟩ rfl (by decide) ((fmtXYN_ends _ _ _ _).trans rfl)

theorem subVxVy (x y : Reg) : Statement (.subVxVy x y) :=
  of_row ⟨15, 0xF00F, 0x8005⟩ rfl (by decide) ((fmtXYN_ends _ _ _ _).trans rfl)

theorem shrVx (x y : Reg) : Statement (.shrVx x y) :=
  of_row ⟨16, 0xF00F, 0x8006⟩ rfl (by decide) ((fmtXYN_ends _ _ _ _).trans rfl)

theorem subnVxVy (x y : Reg) : Statement (.subnVxVy x y) :=
  of_row ⟨17, 0xF00F, 0x8007⟩ rfl (by decide) ((fmtXYN_ends _ _ _ _).trans rfl)

theorem shlVx (x y : Reg) : Statement (.shlVx x y) :=
  of_row ⟨18, 0xF00F, 0x800E⟩ rfl (by decide) ((fmtXYN_ends _ _ _ _).trans rfl)

theorem sneVxVy (x y : Reg) : Statement (.sneVxVy x y) :=
  of_row ⟨19, 0xF00F, 0x9000⟩ rfl (by decide) ((fmtXYN_ends _ _ _ _).trans rfl)

theorem ldINnn (nnn : BitVec 12) : Statement (.ldINnn nnn) :=
  of_row ⟨20, 0xF000, 0xA000⟩ rfl (by decide) ((fmtNNN_family _ _).trans rfl)

theorem jpV0Nnn (nnn : BitVec 12) : Statement (.jpV0Nnn nnn) :=
  of_row ⟨21, 0xF000, 0xB000⟩ rfl (by decide) ((fmtNNN_family _ _).trans rfl)

theorem rndVxKk (x : Reg) (kk : Byte) : Statement (.rndVxKk x kk) :=
  of_row ⟨22, 0xF000, 0xC000⟩ rfl (by decide) ((fmtXKK_family _ _ _).trans rfl)

theorem drwVxVyN (x y : Reg) (n : BitVec 4) : Statement (.drwVxVyN x y n) :=
  of_row ⟨23, 0xF000, 0xD000⟩ rfl (by decide) ((fmtXYN_family _ _ _ _).trans rfl)

theorem skpVx (x : Reg) : Statement (.skpVx x) :=
  of_row ⟨24, 0xF0FF, 0xE09E⟩ rfl (by decide) ((fmtX_code _ _ _).trans rfl)

theorem sknpVx (x : Reg) : Statement (.sknpVx x) :=
  of_row ⟨25, 0xF0FF, 0xE0A1⟩ rfl (by decide) ((fmtX_code _ _ _).trans rfl)

theorem ldVxDt (x : Reg) : Statement (.ldVxDt x) :=
  of_row ⟨26, 0xF0FF, 0xF007⟩ rfl (by decide) ((fmtX_code _ _ _).trans rfl)

theorem ldVxK (x : Reg) : Statement (.ldVxK x) :=
  of_row ⟨27, 0xF0FF, 0xF00A⟩ rfl (by decide) ((fmtX_code _ _ _).trans rfl)

theorem ldDtVx (x : Reg) : Statement (.ldDtVx x) :=
  of_row ⟨28, 0xF0FF, 0xF015⟩ rfl (by decide) ((fmtX_code _ _ _).trans rfl)

theorem ldStVx (x : Reg) : Statement (.ldStVx x) :=
  of_row ⟨29, 0xF0FF, 0xF018⟩ rfl (by decide) ((fmtX_code _ _ _).trans rfl)

theorem addIVx (x : Reg) : Statement (.addIVx x) :=
  of_row ⟨30, 0xF0FF, 0xF01E⟩ rfl (by decide) ((fmtX_code _ _ _).trans rfl)

theorem ldFVx (x : Reg) : Statement (.ldFVx x) :=
  of_row ⟨31, 0xF0FF, 0xF029⟩ rfl (by decide) ((fmtX_code _ _ _).trans rfl)

theorem ldBVx (x : Reg) : Statement (.ldBVx x) :=
  of_row ⟨32, 0xF0FF, 0xF033⟩ rfl (by decide) ((fmtX_code _ _ _).trans rfl)

theorem ldMemVx (x : Reg) : Statement (.ldMemVx x) :=
  of_row ⟨33, 0xF0FF, 0xF055⟩ rfl (by decide) ((fmtX_code _ _ _).trans rfl)

theorem ldVxMem (x : Reg) : Statement (.ldVxMem x) :=
  of_row ⟨34, 0xF0FF, 0xF065⟩ rfl (by decide) ((fmtX_code _ _ _).trans rfl)

theorem ignored (w : Word) : Statement (.ignored w) := fun _ h => by cases h

end Laws.EncodedRow

end Sys2Proof
end

