-- ==== Sys2Proof/Laws/Step.lean ====
section
/-! SUPPORT. Everything one step can do, said once, by the status it starts from (00_scope R9, 10_state R23,
40_execution_cycle R80 to R85). -/
namespace Sys2Proof.Machine

/-- In an ended run only the outside world steps. -/
theorem step_of_ended (s : State) (h : s.ended) : step s = .next s.takeInput := by
  rcases h with h | ⟨c, h⟩ <;> simp [step, nextStep, h]

/-- While an `Fx0A` waits a key may be delivered. -/
theorem step_of_waitKey (s : State) (x : Reg) (h : s.status = .waitKey x) :
    step s = .next s.takeInput.deliverKey := by
  simp [step, nextStep, h]

/-- Running, with `PC` where a word can be fetched: the halt check, else the instruction. -/
theorem step_of_running (s : State) (h : s.status = .running) (hp : s.pc.toNat ≤ 4094) :
    step s =
      if s.haltsOn s.wordAtPc then .next { s.takeInput with status := .halted }
      else exec (decodeWord s.wordAtPc) (s.takeInput.advance s.wordAtPc) := by
  have e : step s = runCycle s.takeInput := by simp [step, nextStep, h]
  rw [e]
  unfold runCycle
  rw [memReadWord_ok _ (by simp; omega)]
  rfl

/-- Running, with `PC` where no word can be fetched. -/
theorem step_of_fetch_out_of_range (s : State) (h : s.status = .running) (hp : ¬ s.pc.toNat ≤ 4094) :
    step s = .next (s.takeInput.raiseFatal (.memRange (max s.pc.toNat 4096) .fetch)) := by
  have e : step s = runCycle s.takeInput := by simp [step, nextStep, h]
  rw [e]
  unfold runCycle
  rw [memReadWord_error _ (by simp; omega)]
  rfl

/-- Everything a step can do. -/
theorem step_cases {s t : State} (e : step s = .next t) :
    (s.ended ∧ t = s.takeInput) ∨
    (∃ x, s.status = .waitKey x ∧ t = s.takeInput.deliverKey) ∨
    (s.status = .running ∧ ¬ s.pc.toNat ≤ 4094 ∧
      t = s.takeInput.raiseFatal (.memRange (max s.pc.toNat 4096) .fetch)) ∨
    (s.status = .running ∧ s.pc.toNat ≤ 4094 ∧ s.haltsOn s.wordAtPc = true ∧
      t = { s.takeInput with status := .halted }) ∨
    (s.status = .running ∧ s.pc.toNat ≤ 4094 ∧ s.haltsOn s.wordAtPc = false ∧
      exec (decodeWord s.wordAtPc) (s.takeInput.advance s.wordAtPc) = .next t) := by
  cases h : s.status with
  | running =>
    by_cases hp : s.pc.toNat ≤ 4094
    · rw [step_of_running s h hp] at e
      cases hh : s.haltsOn s.wordAtPc
      · rw [hh] at e
        exact .inr (.inr (.inr (.inr ⟨rfl, hp, rfl, by simpa using e⟩)))
      · rw [hh] at e
        cases e
        exact .inr (.inr (.inr (.inl ⟨rfl, hp, rfl, rfl⟩)))
    · rw [step_of_fetch_out_of_range s h hp] at e
      cases e
      exact .inr (.inr (.inl ⟨rfl, hp, rfl⟩))
  | waitKey x =>
    rw [step_of_waitKey s x h] at e
    cases e
    exact .inr (.inl ⟨x, rfl, rfl⟩)
  | halted =>
    rw [step_of_ended s (.inl h)] at e
    cases e
    exact .inl ⟨.inl h, rfl⟩
  | fatal c =>
    rw [step_of_ended s (.inr ⟨c, h⟩)] at e
    cases e
    exact .inl ⟨.inr ⟨c, h⟩, rfl⟩

/-- The advance of a fetchable `PC` does not wrap. -/
theorem advance_pc_toNat (s : State) (w : Word) (hp : s.pc.toNat ≤ 4094) : (s.advance w).pc.toNat = s.pc.toNat + 2 := by
  simp [BitVec.toNat_add]
  omega

end Sys2Proof.Machine
end

