-- ==== Sys2Proof/Tests/Slice0.lean ====
section
/-! SUPPORT. The model's own tests: the well-formedness check, decoding of words written out from the spec, single steps
whose results are the vectors of 95_test_vectors (their names stand before each), and a witness for the hypotheses of
every statement. -/
open Sys2Proof Sys2Proof.Machine

namespace Sys2Proof.Tests

/-! ### Well-formedness: an ignored word matches no row (30_encoding R66) -/

theorem test_wf_ignored_accepted : (Instr.ignored 0x5121).wellFormed = true := by decide
theorem test_wf_ignored_refuses_jp : (Instr.ignored 0x1200).wellFormed = false := by decide
theorem test_wf_ignored_refuses_cls : (Instr.ignored 0x00E0).wellFormed = false := by decide
theorem test_wf_ignored_refuses_shl : (Instr.ignored 0x812E).wellFormed = false := by decide
theorem test_wf_ignored_refuses_block_load : (Instr.ignored 0xFF65).wellFormed = false := by decide

/-! ### Decoding, every constructor by a word written out from 30_encoding R62 and R64 -/

theorem test_decode_cls : decodeWord 0x00E0 = .cls := by decide
theorem test_decode_ret : decodeWord 0x00EE = .ret := by decide
theorem test_decode_jp : decodeWord 0b0001101010111100 = .jp 0xABC := by decide
theorem test_decode_call : decodeWord 0x2ABC = .call 0xABC := by decide
theorem test_decode_seVxKk : decodeWord 0x3A5C = .seVxKk 10 0x5C := by decide
theorem test_decode_sneVxKk : decodeWord 0x4A5C = .sneVxKk 10 0x5C := by decide
theorem test_decode_seVxVy : decodeWord 0x5AB0 = .seVxVy 10 11 := by decide
theorem test_decode_ldVxKk : decodeWord 0b0110101001011100 = .ldVxKk 10 0x5C := by decide
theorem test_decode_addVxKk : decodeWord 0x7A5C = .addVxKk 10 0x5C := by decide
theorem test_decode_ldVxVy : decodeWord 0x8AB0 = .ldVxVy 10 11 := by decide
theorem test_decode_orVxVy : decodeWord 0x8AB1 = .orVxVy 10 11 := by decide
theorem test_decode_andVxVy : decodeWord 0x8AB2 = .andVxVy 10 11 := by decide
theorem test_decode_xorVxVy : decodeWord 0x8AB3 = .xorVxVy 10 11 := by decide
theorem test_decode_addVxVy : decodeWord 0b1000101010110100 = .addVxVy 10 11 := by decide
theorem test_decode_subVxVy : decodeWord 0x8AB5 = .subVxVy 10 11 := by decide
theorem test_decode_shrVx : decodeWord 0x8AB6 = .shrVx 10 11 := by decide
theorem test_decode_subnVxVy : decodeWord 0x8AB7 = .subnVxVy 10 11 := by decide
theorem test_decode_shlVx : decodeWord 0x8ABE = .shlVx 10 11 := by decide
theorem test_decode_sneVxVy : decodeWord 0x9AB0 = .sneVxVy 10 11 := by decide
theorem test_decode_ldINnn : decodeWord 0b1010110111101111 = .ldINnn 0xDEF := by decide
theorem test_decode_jpV0Nnn : decodeWord 0xBDEF = .jpV0Nnn 0xDEF := by decide
theorem test_decode_rndVxKk : decodeWord 0xCA5C = .rndVxKk 10 0x5C := by decide
theorem test_decode_drwVxVyN : decodeWord 0b1101101010111100 = .drwVxVyN 10 11 12 := by decide
theorem test_decode_skpVx : decodeWord 0xEA9E = .skpVx 10 := by decide
theorem test_decode_sknpVx : decodeWord 0xEAA1 = .sknpVx 10 := by decide
theorem test_decode_ldVxDt : decodeWord 0b1111101000000111 = .ldVxDt 10 := by decide
theorem test_decode_ldVxK : decodeWord 0xFA0A = .ldVxK 10 := by decide
theorem test_decode_ldDtVx : decodeWord 0xFA15 = .ldDtVx 10 := by decide
theorem test_decode_ldStVx : decodeWord 0xFA18 = .ldStVx 10 := by decide
theorem test_decode_addIVx : decodeWord 0xFA1E = .addIVx 10 := by decide
theorem test_decode_ldFVx : decodeWord 0xFA29 = .ldFVx 10 := by decide
theorem test_decode_ldBVx : decodeWord 0xFA33 = .ldBVx 10 := by decide
theorem test_decode_ldMemVx : decodeWord 0xFA55 = .ldMemVx 10 := by decide
theorem test_decode_ldVxMem : decodeWord 0xFA65 = .ldVxMem 10 := by decide

/-! Words one digit away from a pattern are ignored (vectors I-1 to I-6). -/

theorem test_decode_ignored_family0 : decodeWord 0x0000 = .ignored 0x0000 ∧ decodeWord 0x00E1 = .ignored 0x00E1 ∧
    decodeWord 0x01E0 = .ignored 0x01E0 ∧ decodeWord 0x00FE = .ignored 0x00FE := by decide
theorem test_decode_ignored_pairs : decodeWord 0x5121 = .ignored 0x5121 ∧ decodeWord 0x8128 = .ignored 0x8128 ∧
    decodeWord 0x812F = .ignored 0x812F ∧ decodeWord 0x9121 = .ignored 0x9121 := by decide
theorem test_decode_ignored_families_e_f : decodeWord 0xE19F = .ignored 0xE19F ∧ decodeWord 0xF0FF = .ignored 0xF0FF ∧
    decodeWord 0xF175 = .ignored 0xF175 ∧ decodeWord 0xF185 = .ignored 0xF185 := by decide

theorem test_encode_drw : encode (.drwVxVyN 1 2 5) = 0xD125 := by decide
theorem test_decode_bytes : decode [0x12, 0x04, 0xFF] = .ok (.jp 0x204, [0xFF]) := by decide

/-! ### One step: the word stands at `PC`, nothing happens outside -/

/-- The state with an input listed. -/
def given (inp : Input) (s : State) : State := { s with script := [inp] }

/-- Whether the answer is a next state of which `p` holds. -/
def answers (r : Result) (p : State → Bool) : Bool :=
  match r with
  | .next t => p t
  | .fault _ => false
  | .refused _ => false

/-- Whether the step of the word, under that input, answers a state of which `p` holds. -/
def under (inp : Input) (s : State) (w : Nat) (p : State → Bool) : Bool :=
  answers (step ((given inp s).withFetchWord 16 w)) p

/-- The same where nothing happens outside. -/
def after (s : State) (w : Nat) (p : State → Bool) : Bool := under Input.quiet s w p

/-- The reset state with one register, two registers. -/
def with1 (r : Reg) (b : Byte) : State := State.reset.setReg r b
def with2 (r : Reg) (b : Byte) (q : Reg) (c : Byte) : State := (with1 r b).setReg q c

def atI (i : Word) (s : State) : State := { s with i := i }

/-! Execution cycle -/

-- H-1, second step
theorem test_halt_pair : after State.reset 0x1200
    (fun t => t.status = .running ∧ t.prev = some 0x1200 ∧ answers (step (given Input.quiet t))
      (fun u => u.status = .halted ∧ u.pc = 0x200 ∧ u.prev = some 0x1200)) = true := by decide
-- X-2
theorem test_fetch_out_of_range :
    answers (step (given Input.quiet { State.reset with pc := 0xFFF, prev := some 0x1FFF }))
      (fun t => t.status = .fatal (.memRange 4096 .fetch) ∧ t.pc = 0xFFF ∧ t.prev = some 0x1FFF) = true := by decide
-- I-1
theorem test_ignored : after (with2 1 7 2 7) 0x5121 (fun t => t.pc = 0x202 ∧ t.v = (with2 1 7 2 7).v) = true := by decide
-- X-1
theorem test_ignored_at_the_top : after { State.reset with pc := 0xFFE } 0x0000
    (fun t => t.pc = 0x1000 ∧ t.status = .running) = true := by decide

/-! Control transfer -/

-- C-1, C-2
theorem test_ret : after { State.reset with pc := 0x20C, sp := 1, stack := State.reset.stack.set 0 0x206 } 0x00EE
    (fun t => t.sp = 0 ∧ t.pc = 0x206) = true := by decide
theorem test_ret_empty : after State.reset 0x00EE
    (fun t => t.status = .fatal (.stackUnderflow 0x200) ∧ t.pc = 0x202 ∧ t.sp = 0) = true := by decide
-- C-3
theorem test_jp : after { State.reset with pc := 0x20A } 0x1204 (fun t => t.pc = 0x204) = true := by decide
-- C-6, C-7
theorem test_call_last_slot : after { State.reset with sp := 15 } 0x2300
    (fun t => t.stack[15] = 0x202 ∧ t.sp = 16 ∧ t.pc = 0x300) = true := by decide
theorem test_call_full : after { State.reset with sp := 16 } 0x2300
    (fun t => t.status = .fatal (.stackOverflow 0x200) ∧ t.pc = 0x202 ∧ t.sp = 16 ∧ t.stack = State.reset.stack) = true := by
  decide
-- S3, C-8, C-9
theorem test_seVxKk_skips : after (with1 1 5) 0x3105 (fun t => t.pc = 0x204) = true := by decide
theorem test_seVxKk_stays : after (with1 1 6) 0x3105 (fun t => t.pc = 0x202) = true := by decide
-- C-11, C-12
theorem test_sneVxKk_skips : after (with1 2 0xFE) 0x42FF (fun t => t.pc = 0x204) = true := by decide
theorem test_sneVxKk_stays : after (with1 2 0xFF) 0x42FF (fun t => t.pc = 0x202) = true := by decide
-- C-13, C-14
theorem test_seVxVy_skips : after (with2 1 7 2 7) 0x5120 (fun t => t.pc = 0x204) = true := by decide
theorem test_seVxVy_stays : after (with2 1 7 2 8) 0x5120 (fun t => t.pc = 0x202) = true := by decide
-- C-16, C-17
theorem test_sneVxVy_skips : after (with2 1 7 2 8) 0x9120 (fun t => t.pc = 0x204) = true := by decide
theorem test_sneVxVy_same : after (with1 3 9) 0x9330 (fun t => t.pc = 0x202) = true := by decide
-- C-18, C-19
theorem test_jpV0 : after (with1 0 0x04) 0xB300 (fun t => t.pc = 0x304) = true := by decide
theorem test_jpV0_unmasked : after (with1 0 0xFF) 0xBFFF (fun t => t.pc = 0x10FE) = true := by decide

/-! Load, arithmetic, logic, random -/

-- A-1, A-2
theorem test_ldVxKk : after State.reset 0x60EA (fun t => t.reg 0 = 0xEA) = true := by decide
theorem test_ldVxKk_vf : after State.reset 0x6F07 (fun t => t.reg 15 = 0x07) = true := by decide
-- A-3, A-5
theorem test_addVxKk_no_flag : after (with1 1 0x05) 0x71FF (fun t => t.reg 1 = 0x04 ∧ t.reg 15 = 0) = true := by decide
theorem test_addVxKk_vf : after (with1 15 0xFF) 0x7F01 (fun t => t.reg 15 = 0) = true := by decide
-- A-6
theorem test_ldVxVy : after (with2 15 1 14 9) 0x8EF0 (fun t => t.reg 14 = 1 ∧ t.reg 15 = 1) = true := by decide
-- A-7
theorem test_orVxVy : after ((with2 1 0xF0 2 0x0F).setReg 15 1) 0x8121 (fun t => t.reg 1 = 0xFF ∧ t.reg 15 = 1) = true := by
  decide
-- A-8
theorem test_andVxVy : after (with2 1 0xF3 2 0x3F) 0x8122 (fun t => t.reg 1 = 0x33) = true := by decide
-- A-9, A-10
theorem test_xorVxVy : after (with2 1 0xFF 2 0x0F) 0x8123 (fun t => t.reg 1 = 0xF0) = true := by decide
theorem test_xorVxVy_same : after (with1 3 0x5A) 0x8333 (fun t => t.reg 3 = 0) = true := by decide
-- S1, A-14
theorem test_addVxVy : after (with2 0 0xFF 1 0x01) 0x8014 (fun t => t.reg 0 = 0 ∧ t.reg 15 = 1 ∧ t.reg 1 = 1) = true := by
  decide
theorem test_addVxVy_vf : after (with2 15 2 1 3) 0x8F14 (fun t => t.reg 15 = 0) = true := by decide
-- S2, A-20
theorem test_subVxVy : after (with2 0 0x01 1 0x02) 0x8015 (fun t => t.reg 0 = 0xFF ∧ t.reg 15 = 0) = true := by decide
theorem test_subVxVy_vf : after (with2 15 5 1 3) 0x8F15 (fun t => t.reg 15 = 1) = true := by decide
-- A-22, A-23
theorem test_shrVx : after (with1 3 0x05) 0x8306 (fun t => t.reg 3 = 2 ∧ t.reg 15 = 1) = true := by decide
theorem test_shrVx_ignores_y : after (with2 3 4 7 0xFF) 0x8376 (fun t => t.reg 3 = 2 ∧ t.reg 15 = 0 ∧ t.reg 7 = 0xFF) = true := by
  decide
-- A-26, A-27
theorem test_subnVxVy : after (with2 0 0x03 1 0x01) 0x8017 (fun t => t.reg 0 = 0xFE ∧ t.reg 15 = 0) = true := by decide
theorem test_subnVxVy_equal : after (with2 0 9 1 9) 0x8017 (fun t => t.reg 0 = 0 ∧ t.reg 15 = 0) = true := by decide
-- A-28, A-29
theorem test_shlVx : after (with1 3 0x81) 0x830E (fun t => t.reg 3 = 2 ∧ t.reg 15 = 1) = true := by decide
theorem test_shlVx_ignores_y : after (with2 3 0x40 7 0xFF) 0x837E (fun t => t.reg 3 = 0x80 ∧ t.reg 15 = 0 ∧ t.reg 7 = 0xFF) = true := by
  decide
-- A-31
theorem test_rndVxKk : under { Input.quiet with random := 0xA7 } State.reset 0xC10F (fun t => t.reg 1 = 0x07) = true := by decide

/-! Address register and memory -/

-- M-2
theorem test_ldINnn : after State.reset 0xAFFF (fun t => t.i = 0x0FFF) = true := by decide
-- M-4, M-5
theorem test_addIVx_unmasked : after (atI 0x0FFF (with1 2 1)) 0xF21E (fun t => t.i = 0x1000 ∧ t.reg 15 = 0) = true := by decide
theorem test_addIVx_wraps : after (atI 0xFFFF (with1 2 2)) 0xF21E (fun t => t.i = 0x0001) = true := by decide
-- M-6, M-7
theorem test_ldFVx : after (with1 5 0x0A) 0xF529 (fun t => t.i = 0x0032) = true := by decide
theorem test_ldFVx_unmasked : after (with1 5 0xFF) 0xF529 (fun t => t.i = 0x04FB) = true := by decide
-- S6, M-12
theorem test_ldBVx : after (atI 0x300 (with1 0 0xEA)) 0xF033
    (fun t => t.peek 0x300 = 2 ∧ t.peek 0x301 = 3 ∧ t.peek 0x302 = 4 ∧ t.i = 0x300) = true := by decide
theorem test_ldBVx_out_of_range : after (atI 0xFFE (with1 0 0xFF)) 0xF033
    (fun t => t.status = .fatal (.memRange 0x1000 .write) ∧ t.peek 0xFFE = 0 ∧ t.peek 0xFFF = 0 ∧ t.pc = 0x202) = true := by
  decide
-- M-14, M-17
theorem test_ldMemVx : after (atI 0x300 ((with2 0 1 1 2).setReg 2 3)) 0xF255
    (fun t => t.peek 0x300 = 1 ∧ t.peek 0x301 = 2 ∧ t.peek 0x302 = 3 ∧ t.peek 0x303 = 0 ∧ t.i = 0x300) = true := by decide
theorem test_ldMemVx_out_of_range : after (atI 0xFFE (with2 0 1 3 2)) 0xF355
    (fun t => t.status = .fatal (.memRange 0x1000 .write) ∧ t.peek 0xFFE = 0) = true := by decide
-- M-19, M-20
theorem test_ldVxMem_font : after State.reset 0xF465
    (fun t => t.reg 0 = 0xF0 ∧ t.reg 1 = 0x90 ∧ t.reg 4 = 0xF0 ∧ t.reg 5 = 0) = true := by decide
theorem test_ldVxMem_out_of_range : after (atI 0xFFE State.reset) 0xF265
    (fun t => t.status = .fatal (.memRange 0x1000 .read) ∧ t.v = State.reset.v) = true := by decide

/-! Display and keypad -/

/-- The sprite byte `0xF0` at `0x300`, to be drawn at column 62, row 31. -/
def spriteState : State := (atI 0x300 (with2 1 62 2 31)).poke 0x300 0xF0

/-- The state after D-1. -/
def drawnState : State :=
  { spriteState with pix := (((spriteState.pix.flip 62 31).flip 63 31).flip 0 31).flip 1 31 }

-- D-12
theorem test_cls : after drawnState 0x00E0 (fun t => t.pix = Display.blank) = true := by decide
-- D-1, D-2
theorem test_drw_wraps : after spriteState 0xD121 (fun t => t.pix = drawnState.pix ∧ t.reg 15 = 0) = true := by decide
theorem test_drw_collides : after drawnState 0xD121 (fun t => t.pix = Display.blank ∧ t.reg 15 = 1) = true := by decide
-- K-1, K-3
theorem test_skpVx : under { Input.quiet with keys := Input.quiet.keys.set 10 true } (with1 4 10) 0xE49E
    (fun t => t.pc = 0x204) = true := by decide
theorem test_sknpVx : after (with1 4 10) 0xE4A1 (fun t => t.pc = 0x204) = true := by decide
-- K-5, both outcomes
theorem test_skpVx_free : under { Input.quiet with keyAnswer := true } (with1 4 0x1A) 0xE49E (fun t => t.pc = 0x204) = true ∧
    after (with1 4 0x1A) 0xE49E (fun t => t.pc = 0x202) = true := by decide
-- K-6, the wait and the delivery
theorem test_ldVxK : after State.reset 0xF30A (fun t => t.status = .waitKey 3 ∧ t.pc = 0x202) = true := by decide
theorem test_key_delivery :
    answers (step (given { Input.quiet with delivery := some 7 } { State.reset with status := .waitKey 3, prev := some 0xF30A }))
      (fun t => t.reg 3 = 7 ∧ t.status = .running ∧ t.pc = 0x200) = true := by decide

/-! Timers -/

-- T-1
theorem test_ldVxDt : after { State.reset with dt := 0x2A } 0xF307 (fun t => t.reg 3 = 0x2A ∧ t.dt = 0x2A) = true := by decide
-- T-2
theorem test_ldDtVx : after (with1 0 0x0A) 0xF015 (fun t => t.dt = 0x0A) = true := by decide
-- T-3
theorem test_ldStVx : after (with1 1 3) 0xF118 (fun t => t.st = 3 ∧ t.soundEvents = 0) = true := by decide
-- T-6
theorem test_sound_events : under { Input.quiet with ticksST := 4 } { State.reset with st := 3 } 0x0000
    (fun t => t.st = 0 ∧ t.soundEvents = 3) = true := by decide
-- S8
theorem test_delay_ticks : under { Input.quiet with ticksDT := 11 } { State.reset with dt := 10 } 0x0000
    (fun t => t.dt = 0) = true := by decide
-- V-FONT
theorem test_font : (List.range 5).map (State.reset.peek) = [0xF0, 0x90, 0x90, 0x90, 0xF0] ∧
    ((List.range 6).map fun k => State.reset.peek (75 + k)) = [0xF0, 0x80, 0xF0, 0x80, 0x80, 0] := by decide

/-! ### Witnesses: a concrete state and operands that meet the hypotheses of each statement that has some -/

/-- The state of a next answer, the reset state of any other. -/
def nextOf (r : Result) : State :=
  match r with
  | .next t => t
  | .fault _ => State.reset
  | .refused _ => State.reset

theorem next_of {r : Result} (h : answers r (fun _ => true) = true) : r = .next (nextOf r) := by
  cases r with
  | next t => rfl
  | fault f => cases h
  | refused f => cases h

/-- Reset, with the next input quiet. -/
def quiet : State := given Input.quiet State.reset

theorem reset_memWf : State.reset.memWf := ⟨List.Pairwise.nil, fun c h => by cases h⟩

theorem memWf_atI (i : Word) : (atI i State.reset).memWf := reset_memWf

/-! Encoding -/

theorem witness_DecodeOfEncodeIsIdentity :
    (Instr.drwVxVyN 15 0 15).wellFormed = true ∧ (Instr.ignored 0xFFFF).wellFormed = true := by decide

theorem witness_TableRowsNeverOverlap : (⟨18, 0xF00F, 0x800E⟩ : Row) ∈ rows ∧ (⟨18, 0xF00F, 0x800E⟩ : Row).selects 0x8FFE = true := by
  decide

theorem witness_BytesOfAnInstructionDecode : (Instr.call 0xFFF).wellFormed = true ∧ ([0x12] : List Byte).length < 2 ∧
    ¬ ([0x12, 0x04] : List Byte).length < 2 := by decide

/-! Memory, at the last address and the first above it -/

theorem witness_ByteReadIsRangeChecked : (4095 : Nat) ≤ 4095 ∧ 4095 < (4096 : Nat) := by decide

theorem witness_ByteWriteChangesOneByte : (4095 : Nat) ≤ 4095 ∧ State.reset.memWf ∧ 4095 < (4096 : Nat) :=
  ⟨by decide, reset_memWf, by decide⟩

theorem witness_WordReadIsBigEndian : (4094 : Nat) ≤ 4094 ∧ (4095 : Nat) = 4095 ∧ 4096 ≤ (4096 : Nat) := by decide

/-! Invariants: the step of a call on the last free slot, of a block store at the top, of a delivery -/

/-- A `2FFF` placed with `SP = 15`. -/
def callState : State := ({ quiet with sp := 15 } : State).withFetchWord 16 0x2FFF

theorem memWf_callState : callState.memWf :=
  State.wf_pokeBytes (a := 0x200) [0x2F, 0xFF] { quiet with sp := 15 } reset_memWf (by decide)

theorem witness_StepKeepsMemoryCanonical : callState.memWf ∧ step callState = .next (nextOf (step callState)) :=
  ⟨memWf_callState, next_of (by decide)⟩

theorem witness_StepKeepsPcBound : callState.pcBound ∧ step callState = .next (nextOf (step callState)) := by
  refine ⟨⟨by decide, ?_⟩, next_of (by decide)⟩
  show ∀ j : Fin 16, j.val < 15 → ((Vector.replicate 16 (0 : Word)).get j).toNat ≤ 0x1000
  intro j _
  simp [Vector.get_eq_getElem]

/-- An `F30A` waits, and the next input delivers key 15. -/
def waiting : State :=
  given { Input.quiet with delivery := some 15 } { State.reset with status := .waitKey 3, prev := some 0xF30A }

theorem witness_StepKeepsWaitShape : waiting.waitShape ∧ step waiting = .next (nextOf (step waiting)) := by
  refine ⟨fun x h => ?_, next_of (by decide)⟩
  have hx : (3 : Reg) = x := Status.waitKey.inj h
  subst hx
  decide

/-! Launch: the longest program that fits, the shortest that does not, a source that fails -/

theorem witness_LaunchPlacesTheProgram :
    (List.replicate 3584 (0xFF : Byte)).length ≤ 3584 ∧ 3583 < (List.replicate 3584 (0xFF : Byte)).length := by
  rw [List.length_replicate]
  omega

theorem witness_FailedLaunchNeverStarts :
    (∀ p, (none : Option (List Byte)) = some p → 3584 < p.length) ∧
      (∀ p, some (List.replicate 3585 (0xFF : Byte)) = some p → 3584 < p.length) := by
  constructor
  · intro p h
    exact absurd h (by simp)
  · intro p h
    rw [← Option.some.inj h, List.length_replicate]
    omega

/-! The execution cycle -/

/-- The last fetchable word, `00E0` at `0xFFE`. -/
def topState : State := ({ quiet with pc := 0xFFE } : State).withFetchWord 16 0x00E0

theorem witness_StepRunsTheDecodedInstruction : topState.status = .running ∧ topState.pc.toNat ≤ 4094 ∧
    decode [topState.peek topState.pc.toNat, topState.peek (topState.pc.toNat + 1)] = .ok (.cls, []) ∧
    topState.haltsOn topState.wordAtPc = false := by decide

theorem witness_PlacedWordRunsNext : 65535 < 65536 ∧ State.reset.memWf := ⟨by decide, reset_memWf⟩

theorem witness_FetchOutOfRangeIsFatal : ({ quiet with pc := 0xFFF } : State).status = .running ∧
    4095 ≤ ({ quiet with pc := 0xFFF } : State).pc.toNat ∧ 4095 ≤ ({ quiet with pc := 0x10FE } : State).pc.toNat := by decide

/-- A jump at `PC` that equals the word before it, for both values of the parameter. -/
def jumpPair (haltCheck : Bool) : State := { quiet.withFetchWord 16 0x1204 with prev := some 0x1204, haltCheck := haltCheck }

theorem witness_EqualJumpPairHalts : (jumpPair true).status = .running ∧ (jumpPair true).pc.toNat ≤ 4094 ∧
    famOf (jumpPair true).wordAtPc = 1 ∧ (jumpPair true).prev = some (jumpPair true).wordAtPc ∧
    (jumpPair true).haltCheck = true ∧ (jumpPair false).haltCheck = false := by decide

theorem witness_EqualJumpPairHalts_off : (jumpPair false).status = .running ∧ (jumpPair false).pc.toNat ≤ 4094 ∧
    famOf (jumpPair false).wordAtPc = 1 ∧ (jumpPair false).prev = some (jumpPair false).wordAtPc := by decide

theorem witness_OnlyTheHaltCheckHalts : (jumpPair true).status = .running ∧
    step (jumpPair true) = .next (nextOf (step (jumpPair true))) ∧
    (nextOf (step (jumpPair true))).status = .halted := ⟨rfl, next_of (by decide), by decide⟩

theorem witness_IgnoredWordIsANoOp : ({ quiet with pc := 0xFFE } : State).status = .running ∧
    ({ quiet with pc := 0xFFE } : State).pc.toNat ≤ 4094 ∧
    decodeWord ({ quiet with pc := 0xFFE } : State).wordAtPc = .ignored 0x0000 := by decide

/-! Fatal conditions, each at its first failing value -/

/-- The instruction at that state answers a next state that is fatal with that cause, and the state was not. -/
def fails (i : Instr) (s : State) (c : FatalCause) : Prop :=
  exec i s = .next (nextOf (exec i s)) ∧ (nextOf (exec i s)).status = .fatal c ∧ s.status ≠ .fatal c

theorem witness_FatalConditionsArePrecise_ret : fails .ret quiet (.stackUnderflow 0x1FE) :=
  ⟨next_of (by decide), by decide, by decide⟩
theorem witness_FatalConditionsArePrecise_call : fails (.call 0x300) { quiet with sp := 16 } (.stackOverflow 0x1FE) :=
  ⟨next_of (by decide), by decide, by decide⟩
theorem witness_FatalConditionsArePrecise_drw : fails (.drwVxVyN 1 2 15) (atI 4082 quiet) (.memRange 4096 .read) :=
  ⟨next_of (by decide), by decide, by decide⟩
theorem witness_FatalConditionsArePrecise_bcd : fails (.ldBVx 1) (atI 4094 quiet) (.memRange 4096 .write) :=
  ⟨next_of (by decide), by decide, by decide⟩
theorem witness_FatalConditionsArePrecise_store : fails (.ldMemVx 15) (atI 4081 quiet) (.memRange 4096 .write) :=
  ⟨next_of (by decide), by decide, by decide⟩
theorem witness_FatalConditionsArePrecise_load : fails (.ldVxMem 15) (atI 0xFFFF quiet) (.memRange 0xFFFF .read) :=
  ⟨next_of (by decide), by decide, by decide⟩

theorem witness_InstructionLimitsAreFatal : ({ quiet with sp := 16 } : State).sp.val = 16 ∧ quiet.sp.val = 0 ∧
    4093 < (atI 4094 quiet).i.toNat ∧ 4095 < (atI 4081 quiet).i.toNat + (15 : Reg).val ∧
    0 < (15 : BitVec 4).toNat ∧ 4096 < (atI 4082 quiet).i.toNat + (15 : BitVec 4).toNat := by decide

theorem witness_EndedRunMovesOnlyTheOutside :
    ({ quiet with status := .halted } : State).ended ∧ (quiet.raiseFatal .loadFailure).ended :=
  ⟨.inl rfl, .inr ⟨.loadFailure, rfl⟩⟩

/-! The outside world -/

theorem witness_InputIsTicksAndKeys : State.reset.script = [] := rfl

theorem witness_DelayTickCountsDown : ({ quiet with dt := 1 } : State).dt ≠ 0 ∧ quiet.dt = 0 := by decide

theorem witness_WaitEndsByKeyDelivery : waiting.status = .waitKey 3 ∧ waiting.nextInput.delivery = some 15 ∧
    (given Input.quiet waiting).status = .waitKey 3 ∧ (given Input.quiet waiting).nextInput.delivery = none := by decide

theorem witness_DelayTimerDrainsAfterTheEnd :
    ({ State.reset with status := .halted, dt := 5, script := [{ Input.quiet with ticksDT := 2 }, Input.quiet] } : State).ended :=
  .inl rfl

/-! Who writes what: an instruction that changes the part -/

/-- The instruction answers a next state of which `p` holds. -/
def writes (i : Instr) (s : State) (p : State → Bool) : Prop :=
  exec i s = .next (nextOf (exec i s)) ∧ p (nextOf (exec i s)) = true

theorem witness_EachPartHasItsWriters_i : writes (.addIVx 1) (quiet.setReg 1 1) (fun t => t.i ≠ quiet.i) :=
  ⟨next_of (by decide), by decide⟩
theorem witness_EachPartHasItsWriters_timers : writes (.ldDtVx 1) (quiet.setReg 1 1) (fun t => t.dt ≠ quiet.dt) ∧
    writes (.ldStVx 1) (quiet.setReg 1 1) (fun t => t.st ≠ quiet.st) :=
  ⟨⟨next_of (by decide), by decide⟩, ⟨next_of (by decide), by decide⟩⟩
theorem witness_EachPartHasItsWriters_stack :
    writes (.call 0x300) quiet (fun t => t.sp ≠ quiet.sp ∧ t.stack ≠ quiet.stack) :=
  ⟨next_of (by decide), by decide⟩
theorem witness_EachPartHasItsWriters_mem :
    writes (.ldMemVx 0) (atI 0xFFF (quiet.setReg 0 1)) (fun t => t.mem ≠ quiet.mem) :=
  ⟨next_of (by decide), by decide⟩
theorem witness_EachPartHasItsWriters_pix : writes .cls drawnState (fun t => t.pix ≠ drawnState.pix) :=
  ⟨next_of (by decide), by decide⟩

theorem witness_FlagHasSixWriters_flag :
    writes (.addVxVy 0 1) (with2 0 0xFF 1 1) (fun t => t.reg Reg.vf ≠ (with2 0 0xFF 1 1).reg Reg.vf) :=
  ⟨next_of (by decide), by decide⟩
theorem witness_FlagHasSixWriters_destination : writes (.ldVxKk 15 7) quiet (fun t => t.reg Reg.vf ≠ quiet.reg Reg.vf) :=
  ⟨next_of (by decide), by decide⟩

theorem witness_NoInstructionReadsTheSoundTimer :
    exec (.ldVxDt 3) quiet = .next (nextOf (exec (.ldVxDt 3) quiet)) := next_of (by decide)

theorem witness_SlotsAboveSpAreUnobservable :
    (∀ j : Fin 16, j.val < ({ quiet with sp := 1 } : State).sp.val →
      ((quiet.stack.set 1 0x206).get j) = ({ quiet with sp := 1 } : State).stack.get j) ∧
    exec .ret { quiet with sp := 1 } = .next (nextOf (exec .ret { quiet with sp := 1 })) := by
  refine ⟨fun j hj => ?_, next_of (by decide)⟩
  have h0 : j = 0 := by
    ext
    have : j.val < 1 := hj
    simpa using this
  subst h0
  decide

/-! Control transfer: the first and the last slot -/

theorem witness_ReturnPopsTheStack : ({ quiet with sp := 1 } : State).sp.val = (0 : Fin 16).val + 1 ∧
    ({ quiet with sp := 16 } : State).sp.val = (15 : Fin 16).val + 1 := by decide

theorem witness_CallPushesThePc : quiet.sp.val = (0 : Fin 16).val ∧
    ({ quiet with sp := 15 } : State).sp.val = (15 : Fin 16).val := by decide

theorem witness_CallThenReturnResumes : ({ quiet with sp := 15 } : State).sp.val < 16 ∧
    exec (.call 0x300) { quiet with sp := 15 } = .next (nextOf (exec (.call 0x300) { quiet with sp := 15 })) :=
  ⟨by decide, next_of (by decide)⟩

/-! Flags and draws -/

theorem witness_flag_statements : (14 : Reg) ≠ Reg.vf ∧ (15 : Reg) = Reg.vf := by decide

theorem witness_RandomByteIsMasked : (0x0F : Byte).getLsbD 4 = false ∧ State.reset.script = [] := by decide

/-! Memory instructions at the last address that is in range -/

theorem witness_DecimalDigitsAreStored : (atI 4093 State.reset).memWf ∧ (atI 4093 State.reset).i.toNat ≤ 4093 :=
  ⟨memWf_atI _, by decide⟩

theorem witness_BlockStoreWritesTheRegisters :
    (atI 4080 State.reset).memWf ∧ (atI 4080 State.reset).i.toNat + (15 : Reg).val ≤ 4095 ∧ (15 : Reg) ≤ 15 :=
  ⟨memWf_atI _, by decide, by decide⟩

theorem witness_BlockLoadReadsTheRegisters :
    (atI 4095 State.reset).i.toNat + (0 : Reg).val ≤ 4095 ∧ (0 : Reg) ≤ 0 := by decide

theorem witness_StoreThenLoadRestoresRegisters :
    (atI 4080 State.reset).memWf ∧ (atI 4080 State.reset).i.toNat + (15 : Reg).val ≤ 4095 ∧
    exec (.ldMemVx 15) (atI 4080 State.reset) = .next (nextOf (exec (.ldMemVx 15) (atI 4080 State.reset))) ∧
    (nextOf (exec (.ldMemVx 15) (atI 4080 State.reset))).i = (atI 4080 State.reset).i :=
  ⟨memWf_atI _, by decide, next_of (by decide), by decide⟩

/-! Display and keypad -/

theorem witness_DrawTogglesTheCoveredPixels :
    ((0 : BitVec 4).toNat = 0 ∨ (atI 0xFFFF State.reset).i.toNat + (0 : BitVec 4).toNat ≤ 4096) ∧
    (atI 4081 State.reset).i.toNat + (15 : BitVec 4).toNat ≤ 4096 := ⟨.inl rfl, by decide⟩

theorem witness_DrawTogglesTheCoveredPixels_covered : spriteCovers drawnState 1 2 1 0 31 ∧ drawnState.pixel 0 31 = true :=
  ⟨⟨0, 2, by decide, by decide, by decide, by decide, by decide⟩, by decide⟩

theorem witness_DrawTogglesTheCoveredPixels_not_covered : ¬ spriteCovers drawnState 1 2 0 0 31 := by
  rintro ⟨row, col, h, -⟩
  exact absurd h (Nat.not_lt_zero _)

theorem witness_DrawTwiceRestoresTheDisplay :
    exec (.drwVxVyN 1 2 1) spriteState = .next (nextOf (exec (.drwVxVyN 1 2 1) spriteState)) ∧
    exec (.drwVxVyN 1 2 1) (nextOf (exec (.drwVxVyN 1 2 1) spriteState)) =
      .next (nextOf (exec (.drwVxVyN 1 2 1) (nextOf (exec (.drwVxVyN 1 2 1) spriteState)))) ∧
    (nextOf (exec (.drwVxVyN 1 2 1) spriteState)).i = spriteState.i ∧
    (nextOf (exec (.drwVxVyN 1 2 1) spriteState)).reg 1 = spriteState.reg 1 ∧
    (nextOf (exec (.drwVxVyN 1 2 1) spriteState)).reg 2 = spriteState.reg 2 ∧
    spriteState.i.toNat + (1 : BitVec 4).toNat ≤ 4096 :=
  ⟨next_of (by decide), next_of (by decide), by decide, by decide, by decide, by decide⟩

theorem witness_KeySkipsFollowTheFlag : ((with1 1 15).reg 1).toNat = (15 : Key).val ∧ 15 < ((with1 1 16).reg 1).toNat ∧
    (with1 1 16).script = [] := by decide

end Sys2Proof.Tests
end

section
/-! PROOFS. The ignored words (30_encoding R66, 40_execution_cycle R86): what their decoding says about the word, that
the halt check passes over them in either place, and the step they make. -/

namespace Sys2Proof

theorem decodeFam0_eq_ignored {x y n : BitVec 4} {w : Word} (h : decodeFam0 x y n = .ignored w) :
    w = 0x0#4 ++ x ++ y ++ n := by
  unfold decodeFam0 at h
  split_ifs at h
  exact (Instr.ignored.inj h).symm

theorem decodeFam8_eq_ignored {x y n : BitVec 4} {w : Word} (h : decodeFam8 x y n = .ignored w) :
    w = 0x8#4 ++ x ++ y ++ n := by
  unfold decodeFam8 at h
  split_ifs at h
  exact (Instr.ignored.inj h).symm

theorem decodeFamE_eq_ignored {x : BitVec 4} {kk : Byte} {w : Word} (h : decodeFamE x kk = .ignored w) :
    w = 0xE#4 ++ x ++ kk := by
  unfold decodeFamE at h
  split_ifs at h
  exact (Instr.ignored.inj h).symm

theorem decodeFamF_eq_ignored {x : BitVec 4} {kk : Byte} {w : Word} (h : decodeFamF x kk = .ignored w) :
    w = 0xF#4 ++ x ++ kk := by
  unfold decodeFamF at h
  split_ifs at h
  exact (Instr.ignored.inj h).symm

/-- Only the families 0, 5, 8, 9, E and F hold ignored words, and each keeps all its digits. -/
theorem decodeDigits_eq_ignored {f x y n : BitVec 4} {w : Word} (h : decodeDigits f x y n = .ignored w) :
    w = f ++ x ++ y ++ n ∧ f ≠ 1 := by
  have family (g : BitVec 4) (hg : f.toNat = g.toNat) (hne : g ≠ 1) (hw : w = g ++ x ++ y ++ n) :
      w = f ++ x ++ y ++ n ∧ f ≠ 1 := by
    obtain rfl : f = g := BitVec.eq_of_toNat_eq hg
    exact ⟨hw, hne⟩
  unfold decodeDigits at h
  split at h
  case h_1 hf => exact family 0x0 hf (by decide) (decodeFam0_eq_ignored h)
  case h_6 hf =>
    split_ifs at h
    exact family 0x5 hf (by decide) (Instr.ignored.inj h).symm
  case h_9 hf => exact family 0x8 hf (by decide) (decodeFam8_eq_ignored h)
  case h_10 hf =>
    split_ifs at h
    exact family 0x9 hf (by decide) (Instr.ignored.inj h).symm
  case h_15 hf =>
    exact family 0xE hf (by decide) ((decodeFamE_eq_ignored h).trans (digits_assoc_two _ _ _ _))
  case h_16 =>
    have hf : f.toNat = (0xF : BitVec 4).toNat := by
      have := f.isLt
      change f.toNat = 15
      grind
    exact family 0xF hf (by decide) ((decodeFamF_eq_ignored h).trans (digits_assoc_two _ _ _ _))
  all_goals cases h

/-- A word that decodes to an ignored word is that word, and its family is not 1, the family of the jumps. -/
theorem decodeWord_eq_ignored {w v : Word} (h : decodeWord v = .ignored w) : w = v ∧ famOf v ≠ 1 := by
  obtain ⟨hw, hf⟩ := decodeDigits_eq_ignored h
  exact ⟨hw.trans (word_of_digits v), hf⟩

end Sys2Proof

namespace Sys2Proof.Machine

/-- The halt check stops on nothing but a word of family 1 after a word of family 1 (40_execution_cycle R82). -/
theorem State.families_of_haltsOn {s : State} {w : Word} (h : s.haltsOn w = true) :
    famOf w = 1 ∧ ∃ q, s.prev = some q ∧ famOf q = 1 := by
  cases hp : s.prev with
  | none => simp [State.haltsOn, isHaltPair, hp] at h
  | some q =>
    simp only [State.haltsOn, isHaltPair, hp, Bool.and_eq_true, decide_eq_true_eq] at h
    obtain ⟨⟨⟨hq, hw⟩, -⟩, -⟩ := h
    exact ⟨hw, q, rfl, hq⟩

theorem State.haltsOn_of_fam_ne_one (s : State) {w : Word} (h : famOf w ≠ 1) : s.haltsOn w = false :=
  Bool.eq_false_iff.2 fun hh => h (State.families_of_haltsOn hh).1

theorem State.haltsOn_of_prev_fam_ne_one {s : State} {q : Word} (hq : s.prev = some q) (h : famOf q ≠ 1) (w : Word) :
    s.haltsOn w = false := by
  refine Bool.eq_false_iff.2 fun hh => ?_
  obtain ⟨-, q', hq', hf⟩ := State.families_of_haltsOn hh
  obtain rfl : q = q' := Option.some.inj (hq.symm.trans hq')
  exact h hf

@[simp] theorem exec_ignored (w : Word) (s : State) : exec (.ignored w) s = .next s := rfl

/-- The input and the advance are all that a step over an ignored word does. -/
theorem step_of_ignored {s : State} {w : Word} (hs : s.status = .running) (hp : s.pc.toNat ≤ 4094)
    (hd : decodeWord s.wordAtPc = .ignored w) : step s = .next (s.takeInput.advance s.wordAtPc) := by
  have hh : s.haltsOn s.wordAtPc = false := s.haltsOn_of_fam_ne_one (decodeWord_eq_ignored hd).2
  simp [step_of_running s hs hp, hh, hd]

/-- The input and the advance change the outside's parts, `PREV` and `PC` only. -/
theorem frame_takeInput_advance (s : State) (w : Word) :
    Frame (fun p => p.outside ∨ p = .prev ∨ p = .pc) s (s.takeInput.advance w) :=
  ((frame_takeInput s).mono fun _ => Or.inl).trans ((frame_advance s.takeInput w).mono fun _ => Or.inr)

/-- Settles O23: an ignored word is not of family 1, so neither place of the halt pair can hold it, and its step is the
input and the advance. -/
theorem ignoredWordIsANoOp : Obligations.IgnoredWordIsANoOp := by
  unfold Obligations.IgnoredWordIsANoOp
  refine fun s w => ⟨exec_ignored w s, fun hs hp hd => ?_⟩
  have hstep := step_of_ignored hs hp hd
  obtain ⟨rfl, hfam⟩ := decodeWord_eq_ignored hd
  exact ⟨rfl, s.haltsOn_of_fam_ne_one hfam, s.takeInput.advance s.wordAtPc, hstep, State.advance_prev _ _,
    advance_pc_toNat s.takeInput _ hp, State.haltsOn_of_prev_fam_ne_one (State.advance_prev _ _) hfam,
    frame_takeInput_advance s _⟩

end Sys2Proof.Machine
end

section
/-! PROOFS. Jump and skips (41_control_transfer R92, R94 to R97): what a word of each format decodes to, by the family's
own digits, and what a skip makes of `PC`. -/

namespace Sys2Proof

/-- A family whose decoding takes the low three digits as one address decodes format `NNN` to that address. -/
theorem decodeWord_fmtNNN {f : BitVec 4} {make : BitVec 12 → Instr}
    (h : ∀ x y n, decodeDigits f x y n = make (x ++ y ++ n)) (nnn : BitVec 12) : decodeWord (fmtNNN f nnn) = make nnn := by
  obtain ⟨x, y, n, rfl⟩ := addr_of_digits nnn
  rw [fmtNNN_digits, decodeWord_digits, h]

/-- A family whose decoding takes a register and the low byte decodes format `XKK` to them. -/
theorem decodeWord_fmtXKK {f : BitVec 4} {make : Reg → Byte → Instr}
    (h : ∀ x hi lo, decodeDigits f x hi lo = make (regOf x) (hi ++ lo)) (x : Reg) (kk : Byte) :
    decodeWord (fmtXKK f x kk) = make x kk := by
  obtain ⟨hi, lo, rfl⟩ := byte_of_digits kk
  rw [fmtXKK_digits, decodeWord_digits, h, regOf_fieldOf]

/-- A family and a low digit whose decoding takes two registers decode formats `XY` and `XYN` to them. -/
theorem decodeWord_fmtXYN {f n : BitVec 4} {make : Reg → Reg → Instr}
    (h : ∀ x y, decodeDigits f x y n = make (regOf x) (regOf y)) (x y : Reg) :
    decodeWord (fmtXYN f x y n) = make x y := by
  rw [fmtXYN, decodeWord_digits, h, regOf_fieldOf, regOf_fieldOf]

end Sys2Proof

namespace Sys2Proof.Machine

@[simp] theorem addrOf_toNat (nnn : BitVec 12) : (addrOf nnn).toNat = nnn.toNat :=
  BitVec.toNat_setWidth_of_le (by decide)

@[simp] theorem State.skipIf_pc (s : State) (c : Bool) : (s.skipIf c).pc = if c then s.pc + 2 else s.pc := by
  cases c <;> rfl

@[simp] theorem exec_jp (nnn : BitVec 12) (s : State) : exec (.jp nnn) s = .next (s.setPc (addrOf nnn)) := rfl

@[simp] theorem exec_seVxKk (x : Reg) (kk : Byte) (s : State) :
    exec (.seVxKk x kk) s = .next (s.skipIf (s.reg x == kk)) := rfl

@[simp] theorem exec_sneVxKk (x : Reg) (kk : Byte) (s : State) :
    exec (.sneVxKk x kk) s = .next (s.skipIf (s.reg x != kk)) := rfl

@[simp] theorem exec_seVxVy (x y : Reg) (s : State) :
    exec (.seVxVy x y) s = .next (s.skipIf (s.reg x == s.reg y)) := rfl

@[simp] theorem exec_sneVxVy (x y : Reg) (s : State) :
    exec (.sneVxVy x y) s = .next (s.skipIf (s.reg x != s.reg y)) := rfl

/-- Skipping on equality adds 2 to `PC` exactly when the bytes are equal, and changes nothing else. -/
theorem skip_if_equal {i : Instr} {s : State} {a b : Byte} (h : exec i s = .next (s.skipIf (a == b))) :
    ∃ t, exec i s = .next t ∧ t.pc = (if a = b then s.pc + 2 else s.pc) ∧ Frame (fun p => p = .pc) s t :=
  ⟨_, h, by simp, frame_skipIf s _⟩

/-- Skipping on inequality adds 2 to `PC` exactly when the bytes differ, and changes nothing else. -/
theorem skip_if_unequal {i : Instr} {s : State} {a b : Byte} (h : exec i s = .next (s.skipIf (a != b))) :
    ∃ t, exec i s = .next t ∧ t.pc = (if a = b then s.pc else s.pc + 2) ∧ Frame (fun p => p = .pc) s t :=
  ⟨_, h, by simp, frame_skipIf s _⟩

/-- Settles O39: family 1 holds the jumps alone, and a jump is one assignment to `PC`, zero-extended. -/
theorem jumpSetsPc : Obligations.JumpSetsPc := by
  unfold Obligations.JumpSetsPc
  exact fun s nnn => ⟨decodeWord_fmtNNN (fun _ _ _ => rfl) nnn, s.setPc (addrOf nnn), exec_jp nnn s, addrOf_toNat nnn,
    frame_setPc s _⟩

/-- Settles O40: all four forms are one conditional skip, on equality (R94, R96) or on inequality (R95, R97). -/
theorem skipsCompareRegisters : Obligations.SkipsCompareRegisters := by
  unfold Obligations.SkipsCompareRegisters
  refine fun s x y kk => ⟨⟨?_, skip_if_equal (exec_seVxKk x kk s)⟩, ⟨?_, skip_if_unequal (exec_sneVxKk x kk s)⟩,
    ⟨?_, skip_if_equal (exec_seVxVy x y s)⟩, ⟨?_, skip_if_unequal (exec_sneVxVy x y s)⟩⟩
  · exact decodeWord_fmtXKK (fun _ _ _ => rfl) x kk
  · exact decodeWord_fmtXKK (fun _ _ _ => rfl) x kk
  · exact decodeWord_fmtXYN (fun _ _ => rfl) x y
  · exact decodeWord_fmtXYN (fun _ _ => rfl) x y

end Sys2Proof.Machine
end

section
/-! PROOFS. Register loads, addition and subtraction (42_load_arith_logic R100, R102, R106, R107, R109): the arithmetic of
bytes as integers, the flags as conditions, and what a write of one register, with or without the flag after it, leaves in
`Vx` and `VF`. -/

namespace Sys2Proof.Machine

theorem addByte_toNat (a b : Byte) : (addByte a b).toNat = (a.toNat + b.toNat) % 256 := BitVec.toNat_add a b

/-- The difference of the operands taken as integers, reduced into the range of a byte. -/
theorem subByte_toNat (a b : Byte) : ((subByte a b).toNat : Int) = ((a.toNat : Int) - b.toNat) % 256 := by
  have hsub : (subByte a b).toNat = (2 ^ 8 - b.toNat + a.toNat) % 2 ^ 8 := BitVec.toNat_sub a b
  have hb : b.toNat < 2 ^ 8 := b.isLt
  omega

@[simp] theorem flagByte_decide (p : Prop) [Decidable p] : flagByte (decide p) = if p then 1 else 0 := by
  simp [flagByte]

theorem carryFlag_eq (a b : Byte) : carryFlag a b = if 255 < a.toNat + b.toNat then 1 else 0 := flagByte_decide _

theorem greaterFlag_eq (a b : Byte) : greaterFlag a b = if b.toNat < a.toNat then 1 else 0 := flagByte_decide _

theorem State.reg_setReg_same (s : State) (r : Reg) (b : Byte) : (s.setReg r b).reg r = b := by simp

/-- The flag is written last, so it is there whatever the destination was. -/
theorem State.reg_setRegFlag_vf (s : State) (x : Reg) (b f : Byte) : (s.setRegFlag x b f).reg Reg.vf = f := by simp

/-- A destination other than `VF` keeps the result. -/
theorem State.reg_setRegFlag_dest (s : State) {x : Reg} (hx : x ≠ Reg.vf) (b f : Byte) :
    (s.setRegFlag x b f).reg x = b := by
  simp [hx]

@[simp] theorem exec_ldVxKk (x : Reg) (kk : Byte) (s : State) : exec (.ldVxKk x kk) s = .next (s.setReg x kk) := rfl

@[simp] theorem exec_ldVxVy (x y : Reg) (s : State) : exec (.ldVxVy x y) s = .next (s.setReg x (s.reg y)) := rfl

@[simp] theorem exec_addVxVy (x y : Reg) (s : State) : exec (.addVxVy x y) s =
    .next (s.setRegFlag x (addByte (s.reg x) (s.reg y)) (carryFlag (s.reg x) (s.reg y))) := rfl

@[simp] theorem exec_subVxVy (x y : Reg) (s : State) : exec (.subVxVy x y) s =
    .next (s.setRegFlag x (subByte (s.reg x) (s.reg y)) (greaterFlag (s.reg x) (s.reg y))) := rfl

@[simp] theorem exec_subnVxVy (x y : Reg) (s : State) : exec (.subnVxVy x y) s =
    .next (s.setRegFlag x (subByte (s.reg y) (s.reg x)) (greaterFlag (s.reg y) (s.reg x))) := rfl

/-- An instruction that is one register write loads that register and changes nothing else. -/
theorem loads_register {i : Instr} {s : State} {x : Reg} {b : Byte} (h : exec i s = .next (s.setReg x b)) :
    ∃ t, exec i s = .next t ∧ t.reg x = b ∧ Frame (fun p => p = .reg x) s t :=
  ⟨_, h, s.reg_setReg_same x b, frame_setReg s x b⟩

/-- An instruction that writes `a - b` to `Vx` and then the strict comparison to `VF` leaves the difference modulo 256
wherever `x` is not F, the comparison in `VF` in every case, and changes nothing else. -/
theorem subtracts_with_flag {i : Instr} {s : State} {x : Reg} {a b : Byte}
    (h : exec i s = .next (s.setRegFlag x (subByte a b) (greaterFlag a b))) :
    ∃ t, exec i s = .next t ∧
      (x ≠ Reg.vf → ((t.reg x).toNat : Int) = ((a.toNat : Int) - b.toNat) % 256) ∧
      t.reg Reg.vf = (if b.toNat < a.toNat then 1 else 0) ∧ Frame (fun p => p = .reg x ∨ p = .reg Reg.vf) s t := by
  refine ⟨_, h, fun hx => ?_, ?_, frame_setRegFlag s x _ _⟩
  · rw [s.reg_setRegFlag_dest hx, subByte_toNat]
  · rw [s.reg_setRegFlag_vf, greaterFlag_eq]

/-- Settles O42: both forms are one write of `Vx`, of the immediate (R100) or of `Vy` (R102). -/
theorem registerLoads : Obligations.RegisterLoads := by
  unfold Obligations.RegisterLoads
  refine fun s x y kk => ⟨⟨?_, loads_register (exec_ldVxKk x kk s)⟩, ⟨?_, loads_register (exec_ldVxVy x y s)⟩⟩
  · exact decodeWord_fmtXKK (fun _ _ _ => rfl) x kk
  · exact decodeWord_fmtXYN (fun _ _ => rfl) x y

/-- Settles O45: the sum is written first and the carry last, so with `x = F` the carry is what stays (R106). -/
theorem addSetsTheCarry : Obligations.AddSetsTheCarry := by
  unfold Obligations.AddSetsTheCarry
  refine fun s x y => ⟨decodeWord_fmtXYN (fun _ _ => rfl) x y, _, exec_addVxVy x y s, fun hx => ?_, ?_,
    frame_setRegFlag s x _ _⟩
  · rw [s.reg_setRegFlag_dest hx, addByte_toNat]
  · rw [s.reg_setRegFlag_vf, carryFlag_eq]

/-- Settles O46: both forms are one subtraction with its flag, `8xy7` with the operands exchanged (R107, R109). -/
theorem subtractSetsStrictlyGreater : Obligations.SubtractSetsStrictlyGreater := by
  unfold Obligations.SubtractSetsStrictlyGreater
  refine fun s x y => ⟨⟨?_, subtracts_with_flag (exec_subVxVy x y s)⟩, ⟨?_, subtracts_with_flag (exec_subnVxVy x y s)⟩⟩
  · exact decodeWord_fmtXYN (fun _ _ => rfl) x y
  · exact decodeWord_fmtXYN (fun _ _ => rfl) x y

end Sys2Proof.Machine
end

section
/-! PROOFS. Load of the address register (43_index_memory R120): one assignment to `I`, which leaves every other part
alone. -/

namespace Sys2Proof.Machine

theorem frame_with_i (s : State) (w : Word) : Frame (fun p => p = .addrI) s { s with i := w } := by
  intro p hp
  cases p
  case addrI => exact absurd rfl hp
  all_goals rfl

@[simp] theorem exec_ldINnn (nnn : BitVec 12) (s : State) :
    exec (.ldINnn nnn) s = .next { s with i := addrOf nnn } := rfl

/-- Settles O49: family A holds the loads of `I` alone, and such a load is one assignment to `I`, zero-extended. -/
theorem loadIndexIsImmediate : Obligations.LoadIndexIsImmediate := by
  unfold Obligations.LoadIndexIsImmediate
  exact fun s nnn => ⟨decodeWord_fmtNNN (fun _ _ _ => rfl) nnn, { s with i := addrOf nnn }, exec_ldINnn nnn s,
    addrOf_toNat nnn, frame_with_i s _⟩

end Sys2Proof.Machine
end

section
/-! PROOFS. The delay timer's tick (60_exceptions R161): it is the identity on a timer at 0, it writes `DT` alone, and `n`
ticks of the state are `n` ticks of the one timer, for which the countdown is known. -/

namespace Sys2Proof.Machine

@[simp] theorem tickDown_zero : tickDown 0 = 0 := rfl

theorem State.tickDT_of_dt_eq_zero {s : State} (h : s.dt = 0) : s.tickDT = s := by
  have hdt : tickDown s.dt = s.dt := by rw [h, tickDown_zero]
  rw [State.tickDT, hdt]

theorem frame_tickDT (s : State) : Frame (fun p => p = .dt) s s.tickDT := by
  intro p hp
  cases p
  case dt => exact absurd rfl hp
  all_goals rfl

theorem State.iterate_tickDT_dt (n : Nat) (s : State) : (State.tickDT^[n] s).dt = ticksDown n s.dt := by
  induction n generalizing s with
  | zero => rfl
  | succ n ih => rw [Function.iterate_succ_apply, ih, State.tickDT_dt, ticksDown]

/-- Settles O28: one tick is one saturating decrement of `DT`, and `n` of them saturate at 0 as the timer does (R161). -/
theorem delayTickCountsDown : Obligations.DelayTickCountsDown := by
  unfold Obligations.DelayTickCountsDown
  refine fun s n => ⟨fun _ => toNat_tickDown s.dt, State.tickDT_of_dt_eq_zero, frame_tickDT s, ?_⟩
  rw [State.iterate_tickDT_dt, toNat_ticksDown]

end Sys2Proof.Machine
end

section
/-! PROOFS. The encoding (30_encoding R60 to R66): the encoder gives back the digits the decoder took, a row of the table
selects exactly the words that decode to it, and from these two facts both round trips. -/

namespace Sys2Proof

/-! ### Every word is the word of its instruction -/

theorem fmtXKK_regOf (f x hi lo : BitVec 4) : fmtXKK f (regOf x) (hi ++ lo) = f ++ x ++ hi ++ lo := by
  rw [fmtXKK_digits, fieldOf_regOf]

theorem fmtXYN_regOf (f x y n : BitVec 4) : fmtXYN f (regOf x) (regOf y) n = f ++ x ++ y ++ n := by
  simp [fmtXYN]

theorem encode_decodeFam0 (x y n : BitVec 4) : encode (decodeFam0 x y n) = 0x0#4 ++ x ++ y ++ n := by
  unfold decodeFam0
  split_ifs with hcls hret
  · obtain ⟨rfl, rfl, rfl⟩ := hcls
    rfl
  · obtain ⟨rfl, rfl, rfl⟩ := hret
    rfl
  · rfl

theorem encode_decodeFam8 (x y n : BitVec 4) : encode (decodeFam8 x y n) = 0x8#4 ++ x ++ y ++ n := by
  unfold decodeFam8
  dsimp only
  split_ifs <;> simp [encode, fmtXYN_regOf, *]

theorem encode_decodeFamE (x : BitVec 4) (kk : Byte) : encode (decodeFamE x kk) = 0xE#4 ++ x ++ kk := by
  unfold decodeFamE
  split_ifs <;> simp [encode, fmtX, *]

theorem encode_decodeFamF (x : BitVec 4) (kk : Byte) : encode (decodeFamF x kk) = 0xF#4 ++ x ++ kk := by
  unfold decodeFamF
  dsimp only
  split_ifs <;> simp [encode, fmtX, *]

/-- Each family's formats put back the digits that were taken out of the word. -/
theorem encode_decodeDigits (f x y n : BitVec 4) : encode (decodeDigits f x y n) = f ++ x ++ y ++ n := by
  have family {v : Word} (g : BitVec 4) (hg : f.toNat = g.toNat) (hv : v = g ++ x ++ y ++ n) : v = f ++ x ++ y ++ n := by
    obtain rfl : f = g := BitVec.eq_of_toNat_eq hg
    exact hv
  unfold decodeDigits
  dsimp only
  split
  case h_1 hf => exact family 0x0 hf (encode_decodeFam0 x y n)
  case h_2 hf => exact family 0x1 hf (fmtNNN_digits _ x y n)
  case h_3 hf => exact family 0x2 hf (fmtNNN_digits _ x y n)
  case h_4 hf => exact family 0x3 hf (fmtXKK_regOf _ x y n)
  case h_5 hf => exact family 0x4 hf (fmtXKK_regOf _ x y n)
  case h_6 hf =>
    refine family 0x5 hf ?_
    split_ifs with hn
    · exact hn ▸ fmtXYN_regOf 0x5 x y n
    · rfl
  case h_7 hf => exact family 0x6 hf (fmtXKK_regOf _ x y n)
  case h_8 hf => exact family 0x7 hf (fmtXKK_regOf _ x y n)
  case h_9 hf => exact family 0x8 hf (encode_decodeFam8 x y n)
  case h_10 hf =>
    refine family 0x9 hf ?_
    split_ifs with hn
    · exact hn ▸ fmtXYN_regOf 0x9 x y n
    · rfl
  case h_11 hf => exact family 0xA hf (fmtNNN_digits _ x y n)
  case h_12 hf => exact family 0xB hf (fmtNNN_digits _ x y n)
  case h_13 hf => exact family 0xC hf (fmtXKK_regOf _ x y n)
  case h_14 hf => exact family 0xD hf (fmtXYN_regOf _ x y n)
  case h_15 hf => exact family 0xE hf ((encode_decodeFamE x _).trans (digits_assoc_two _ x y n))
  case h_16 =>
    refine family 0xF ?_ ((encode_decodeFamF x _).trans (digits_assoc_two _ x y n))
    have := f.isLt
    change f.toNat = 15
    grind

/-- Decoding drops no bit of the word. -/
theorem encode_decodeWord (w : Word) : encode (decodeWord w) = w :=
  (encode_decodeDigits _ _ _ _).trans (word_of_digits w)

/-! ### A row of the table selects the words that decode to it -/

theorem famOf_and (v w : Word) : famOf (v &&& w) = famOf v &&& famOf w := BitVec.extractLsb'_and ..

theorem digitX_and (v w : Word) : digitX (v &&& w) = digitX v &&& digitX w := BitVec.extractLsb'_and ..

theorem digitY_and (v w : Word) : digitY (v &&& w) = digitY v &&& digitY w := BitVec.extractLsb'_and ..

theorem digitN_and (v w : Word) : digitN (v &&& w) = digitN v &&& digitN w := BitVec.extractLsb'_and ..

/-- The digits of a word that selects a row are those of the row's value under the digits of its mask. -/
theorem Row.digits_of_selects {r : Row} {w : Word} (h : r.selects w = true) :
    famOf w &&& famOf r.mask = famOf r.value ∧ digitX w &&& digitX r.mask = digitX r.value ∧
      digitY w &&& digitY r.mask = digitY r.value ∧ digitN w &&& digitN r.mask = digitN r.value := by
  have hw : w &&& r.mask = r.value := by simpa [Row.selects] using h
  rw [← famOf_and, ← digitX_and, ← digitY_and, ← digitN_and, hw]
  exact ⟨rfl, rfl, rfl, rfl⟩

theorem digit_and_ones (d : BitVec 4) : d &&& 15#4 = d := BitVec.and_allOnes

/-- The digits that a row's mask keeps are literals, and the decoder takes that row's branch on them whatever the other
digits are. -/
theorem rowNumber_decodeWord_of_selects {r : Row} {w : Word} (hr : r ∈ rows) (h : r.selects w = true) :
    (decodeWord w).rowNumber = some r.number := by
  obtain ⟨hf, hx, hy, hn⟩ := Row.digits_of_selects h
  clear h
  unfold decodeWord
  generalize famOf w = f, digitX w = x, digitY w = y, digitN w = n at *
  simp only [rows, rowsLow, rowsHigh, List.cons_append, List.nil_append, List.mem_cons, List.not_mem_nil, or_false] at hr
  rcases hr with rfl | rfl | rfl | rfl | rfl | rfl | rfl | rfl | rfl | rfl | rfl | rfl | rfl | rfl | rfl | rfl | rfl |
    rfl | rfl | rfl | rfl | rfl | rfl | rfl | rfl | rfl | rfl | rfl | rfl | rfl | rfl | rfl | rfl | rfl
  all_goals
    simp only [famOf, digitX, digitY, digitN, BitVec.ofNat_eq_ofNat, BitVec.reduceExtractLsb', BitVec.and_zero,
      digit_and_ones] at hf hx hy hn
    subst_vars
    rfl

/-- The table's numbers are 1 to 34 in order, so a row is known by its number. -/
theorem Row.eq_of_number_eq {r q : Row} (hr : r ∈ rows) (hq : q ∈ rows) (h : r.number = q.number) : r = q :=
  List.inj_on_of_nodup_map (f := Row.number) (by decide) hr hq h

open Laws.EncodedRow in
/-- Every instruction's word lies in its row. -/
theorem encodedRow : ∀ i : Instr, Statement i
  | .cls => cls
  | .ret => ret
  | .jp nnn => jp nnn
  | .call nnn => call nnn
  | .seVxKk x kk => seVxKk x kk
  | .sneVxKk x kk => sneVxKk x kk
  | .seVxVy x y => seVxVy x y
  | .ldVxKk x kk => ldVxKk x kk
  | .addVxKk x kk => addVxKk x kk
  | .ldVxVy x y => ldVxVy x y
  | .orVxVy x y => orVxVy x y
  | .andVxVy x y => andVxVy x y
  | .xorVxVy x y => xorVxVy x y
  | .addVxVy x y => addVxVy x y
  | .subVxVy x y => subVxVy x y
  | .shrVx x y => shrVx x y
  | .subnVxVy x y => subnVxVy x y
  | .shlVx x y => shlVx x y
  | .sneVxVy x y => sneVxVy x y
  | .ldINnn nnn => ldINnn nnn
  | .jpV0Nnn nnn => jpV0Nnn nnn
  | .rndVxKk x kk => rndVxKk x kk
  | .drwVxVyN x y n => drwVxVyN x y n
  | .skpVx x => skpVx x
  | .sknpVx x => sknpVx x
  | .ldVxDt x => ldVxDt x
  | .ldVxK x => ldVxK x
  | .ldDtVx x => ldDtVx x
  | .ldStVx x => ldStVx x
  | .addIVx x => addIVx x
  | .ldFVx x => ldFVx x
  | .ldBVx x => ldBVx x
  | .ldMemVx x => ldMemVx x
  | .ldVxMem x => ldVxMem x
  | .ignored w => ignored w

/-- Settles O3: the word of the decoded instruction is `w` itself, which gives a row its word; that a selecting row is
the decoder's is read off the digits. -/
theorem decodeSelectsTheTableRow : Obligations.DecodeSelectsTheTableRow := by
  unfold Obligations.DecodeSelectsTheTableRow
  refine fun w k => ⟨fun hk => ?_, fun ⟨r, hr, hn, hs⟩ => hn ▸ rowNumber_decodeWord_of_selects hr hs⟩
  have hrow := encodedRow (decodeWord w) k hk
  rwa [encode_decodeWord] at hrow

/-- Settles O4: both rows bear the number of the one decoded instruction. -/
theorem tableRowsNeverOverlap : Obligations.TableRowsNeverOverlap := by
  unfold Obligations.TableRowsNeverOverlap
  intro w r q hr hq hrw hqw
  refine Row.eq_of_number_eq hr hq (Option.some.inj ?_)
  rw [← rowNumber_decodeWord_of_selects hr hrw, ← rowNumber_decodeWord_of_selects hq hqw]

/-! ### The round trips -/

/-- Well-formedness says something of the ignored words alone: no row selects the word. -/
theorem wellFormed_of_rowNumber_isSome {i : Instr} (h : i.rowNumber.isSome) : i.wellFormed = true := by
  cases i
  case ignored w => cases h
  all_goals rfl

theorem wellFormed_ignored_iff (w : Word) :
    (Instr.ignored w).wellFormed = true ↔ ∀ r ∈ rows, r.selects w = false := by
  simp [Instr.wellFormed]

/-- Only the ignored words have no row number. -/
theorem eq_ignored_of_rowNumber_eq_none {i : Instr} (h : i.rowNumber = none) : ∃ w, i = .ignored w := by
  cases i
  case ignored w => exact ⟨w, rfl⟩
  all_goals cases h

theorem wellFormed_decodeWord (w : Word) : (decodeWord w).wellFormed = true := by
  cases hk : (decodeWord w).rowNumber with
  | some k => exact wellFormed_of_rowNumber_isSome (hk ▸ rfl)
  | none =>
    obtain ⟨v, hv⟩ := eq_ignored_of_rowNumber_eq_none hk
    obtain ⟨rfl, -⟩ := decodeWord_eq_ignored hv
    rw [hv, wellFormed_ignored_iff]
    refine fun r hr => Bool.eq_false_iff.2 fun hs => ?_
    rw [rowNumber_decodeWord_of_selects hr hs] at hk
    cases hk

/-- A word that no row selects is an ignored word. -/
theorem decodeWord_of_wellFormed_ignored {w : Word} (h : (Instr.ignored w).wellFormed = true) :
    decodeWord w = .ignored w := by
  have hk : (decodeWord w).rowNumber = none := by
    refine Option.eq_none_iff_forall_ne_some.2 fun k hk => ?_
    obtain ⟨r, hr, -, hs⟩ := encodedRow (decodeWord w) k hk
    rw [encode_decodeWord, (wellFormed_ignored_iff w).1 h r hr] at hs
    cases hs
  obtain ⟨v, hv⟩ := eq_ignored_of_rowNumber_eq_none hk
  rw [hv, (decodeWord_eq_ignored hv).1]

/-- A family and a low byte whose decoding takes one register decode format `X` to it. -/
theorem decodeWord_fmtX {f : BitVec 4} {make : Reg → Instr} (hi lo : BitVec 4)
    (h : ∀ x, decodeDigits f x hi lo = make (regOf x)) (x : Reg) : decodeWord (fmtX f x (hi ++ lo)) = make x := by
  rw [fmtX_digits, decodeWord_digits, h, regOf_fieldOf]

theorem decodeWord_encode : ∀ i : Instr, i.wellFormed = true → decodeWord (encode i) = i
  | .cls, _ => rfl
  | .ret, _ => rfl
  | .jp nnn, _ => decodeWord_fmtNNN (fun _ _ _ => rfl) nnn
  | .call nnn, _ => decodeWord_fmtNNN (fun _ _ _ => rfl) nnn
  | .seVxKk x kk, _ => decodeWord_fmtXKK (fun _ _ _ => rfl) x kk
  | .sneVxKk x kk, _ => decodeWord_fmtXKK (fun _ _ _ => rfl) x kk
  | .seVxVy x y, _ => decodeWord_fmtXYN (fun _ _ => rfl) x y
  | .ldVxKk x kk, _ => decodeWord_fmtXKK (fun _ _ _ => rfl) x kk
  | .addVxKk x kk, _ => decodeWord_fmtXKK (fun _ _ _ => rfl) x kk
  | .ldVxVy x y, _ => decodeWord_fmtXYN (fun _ _ => rfl) x y
  | .orVxVy x y, _ => decodeWord_fmtXYN (fun _ _ => rfl) x y
  | .andVxVy x y, _ => decodeWord_fmtXYN (fun _ _ => rfl) x y
  | .xorVxVy x y, _ => decodeWord_fmtXYN (fun _ _ => rfl) x y
  | .addVxVy x y, _ => decodeWord_fmtXYN (fun _ _ => rfl) x y
  | .subVxVy x y, _ => decodeWord_fmtXYN (fun _ _ => rfl) x y
  | .shrVx x y, _ => decodeWord_fmtXYN (fun _ _ => rfl) x y
  | .subnVxVy x y, _ => decodeWord_fmtXYN (fun _ _ => rfl) x y
  | .shlVx x y, _ => decodeWord_fmtXYN (fun _ _ => rfl) x y
  | .sneVxVy x y, _ => decodeWord_fmtXYN (fun _ _ => rfl) x y
  | .ldINnn nnn, _ => decodeWord_fmtNNN (fun _ _ _ => rfl) nnn
  | .jpV0Nnn nnn, _ => decodeWord_fmtNNN (fun _ _ _ => rfl) nnn
  | .rndVxKk x kk, _ => decodeWord_fmtXKK (fun _ _ _ => rfl) x kk
  | .drwVxVyN x y n, _ => decodeWord_fmtXYN (make := fun x y => .drwVxVyN x y n) (fun _ _ => rfl) x y
  | .skpVx x, _ => decodeWord_fmtX 0x9 0xE (fun _ => rfl) x
  | .sknpVx x, _ => decodeWord_fmtX 0xA 0x1 (fun _ => rfl) x
  | .ldVxDt x, _ => decodeWord_fmtX 0x0 0x7 (fun _ => rfl) x
  | .ldVxK x, _ => decodeWord_fmtX 0x0 0xA (fun _ => rfl) x
  | .ldDtVx x, _ => decodeWord_fmtX 0x1 0x5 (fun _ => rfl) x
  | .ldStVx x, _ => decodeWord_fmtX 0x1 0x8 (fun _ => rfl) x
  | .addIVx x, _ => decodeWord_fmtX 0x1 0xE (fun _ => rfl) x
  | .ldFVx x, _ => decodeWord_fmtX 0x2 0x9 (fun _ => rfl) x
  | .ldBVx x, _ => decodeWord_fmtX 0x3 0x3 (fun _ => rfl) x
  | .ldMemVx x, _ => decodeWord_fmtX 0x5 0x5 (fun _ => rfl) x
  | .ldVxMem x, _ => decodeWord_fmtX 0x6 0x5 (fun _ => rfl) x
  | .ignored _, h => decodeWord_of_wellFormed_ignored h

/-- Settles O1, constructor by constructor: each format's decoding reads its operands back (R61, R62), and an ignored word
is well-formed only where no row selects it (R66). -/
theorem decodeOfEncodeIsIdentity : Obligations.DecodeOfEncodeIsIdentity := by
  unfold Obligations.DecodeOfEncodeIsIdentity
  exact decodeWord_encode

/-- Settles O2: every family puts its digits back, and a word that some row selects is never taken as ignored. -/
theorem encodeOfDecodeIsIdentity : Obligations.EncodeOfDecodeIsIdentity := by
  unfold Obligations.EncodeOfDecodeIsIdentity
  exact fun w => ⟨wellFormed_decodeWord w, encode_decodeWord w⟩

/-- Settles O5: the eleven words, each decoded. -/
theorem decodeReadsTheSpecsWords : Obligations.DecodeReadsTheSpecsWords := by
  unfold Obligations.DecodeReadsTheSpecsWords
  decide

/-! ### Bytes -/

theorem decode_encodeBytes_append (i : Instr) (rest : List Byte) :
    decode (encodeBytes i ++ rest) = .ok (decodeWord (encode i), rest) :=
  congrArg (fun w => Except.ok (decodeWord w, rest)) (wordOfBytes_bytes (encode i))

theorem decode_eq_truncated_iff (bytes : List Byte) : decode bytes = .error .truncated ↔ bytes.length < 2 := by
  match bytes with
  | [] => simp [decode]
  | [_] => simp [decode]
  | _ :: _ :: rest => simp [decode]

/-- Settles O6: the two bytes make the word again (R60), and the word decodes to the instruction. -/
theorem bytesOfAnInstructionDecode : Obligations.BytesOfAnInstructionDecode := by
  unfold Obligations.BytesOfAnInstructionDecode
  refine ⟨fun i rest hi => ?_, decode_eq_truncated_iff⟩
  rw [decode_encodeBytes_append, decodeWord_encode i hi]

end Sys2Proof
end

section
/-! PROOFS. What each instruction answers, one equation for each form and, where it can fail, for each side of its limit;
what the remaining updates leave alone; and the statements about single instructions of 41 to 45 that follow. -/

namespace Sys2Proof.Machine

/-! ### Frames of the updates that have none yet -/

theorem frame_with_dt (s : State) (b : Byte) : Frame (fun p => p = .dt) s { s with dt := b } := by
  intro p hp
  cases p
  case dt => exact absurd rfl hp
  all_goals rfl

theorem frame_with_st (s : State) (b : Byte) : Frame (fun p => p = .st) s { s with st := b } := by
  intro p hp
  cases p
  case st => exact absurd rfl hp
  all_goals rfl

theorem frame_with_status (s : State) (c : Status) : Frame (fun p => p = .status) s { s with status := c } := by
  intro p hp
  cases p
  case status => exact absurd rfl hp
  all_goals rfl

theorem frame_with_pix (s : State) (d : Display) : Frame (fun p => ∃ px py, p = .pixel px py) s { s with pix := d } := by
  intro p hp
  cases p
  case pixel px py => exact absurd ⟨px, py, rfl⟩ hp
  all_goals rfl

theorem frame_with_sp_pc (s : State) (k : Fin 17) (w : Word) :
    Frame (fun p => p = .sp ∨ p = .pc) s { s with sp := k, pc := w } := by
  intro p hp
  cases p
  case sp => exact absurd (.inl rfl) hp
  case pc => exact absurd (.inr rfl) hp
  all_goals rfl

theorem frame_with_slot (s : State) (j : Fin 16) (w : Word) :
    Frame (fun p => p = .slot j) s { s with stack := s.stack.set j.val w j.isLt } := by
  intro p hp
  cases p
  case slot k => exact (vector_get_set s.stack k j w).trans (if_neg fun h => hp (congrArg Part.slot h))
  all_goals rfl

/-! ### The instructions that cannot fail -/

@[simp] theorem exec_cls (s : State) : exec .cls s = .next { s with pix := Display.blank } := rfl

@[simp] theorem exec_jpV0Nnn (nnn : BitVec 12) (s : State) :
    exec (.jpV0Nnn nnn) s = .next (s.setPc (addrOf nnn + wide (s.reg 0))) := rfl

@[simp] theorem exec_addVxKk (x : Reg) (kk : Byte) (s : State) :
    exec (.addVxKk x kk) s = .next (s.setReg x (addByte (s.reg x) kk)) := rfl

@[simp] theorem exec_orVxVy (x y : Reg) (s : State) :
    exec (.orVxVy x y) s = .next (s.setReg x (s.reg x ||| s.reg y)) := rfl

@[simp] theorem exec_andVxVy (x y : Reg) (s : State) :
    exec (.andVxVy x y) s = .next (s.setReg x (s.reg x &&& s.reg y)) := rfl

@[simp] theorem exec_xorVxVy (x y : Reg) (s : State) :
    exec (.xorVxVy x y) s = .next (s.setReg x (s.reg x ^^^ s.reg y)) := rfl

@[simp] theorem exec_shrVx (x y : Reg) (s : State) :
    exec (.shrVx x y) s = .next (s.setRegFlag x (shrByte (s.reg x)) (lowBitFlag (s.reg x))) := rfl

@[simp] theorem exec_shlVx (x y : Reg) (s : State) :
    exec (.shlVx x y) s = .next (s.setRegFlag x (shlByte (s.reg x)) (highBitFlag (s.reg x))) := rfl

@[simp] theorem exec_rndVxKk (x : Reg) (kk : Byte) (s : State) :
    exec (.rndVxKk x kk) s = .next (s.setReg x (s.input.random &&& kk)) := rfl

@[simp] theorem exec_skpVx (x : Reg) (s : State) : exec (.skpVx x) s = .next (s.skipIf (s.keyPressed (s.reg x))) := rfl

@[simp] theorem exec_sknpVx (x : Reg) (s : State) :
    exec (.sknpVx x) s = .next (s.skipIf (!s.keyPressed (s.reg x))) := rfl

@[simp] theorem exec_ldVxDt (x : Reg) (s : State) : exec (.ldVxDt x) s = .next (s.setReg x s.dt) := rfl

@[simp] theorem exec_ldVxK (x : Reg) (s : State) : exec (.ldVxK x) s = .next { s with status := .waitKey x } := rfl

@[simp] theorem exec_ldDtVx (x : Reg) (s : State) : exec (.ldDtVx x) s = .next { s with dt := s.reg x } := rfl

@[simp] theorem exec_ldStVx (x : Reg) (s : State) : exec (.ldStVx x) s = .next { s with st := s.reg x } := rfl

@[simp] theorem exec_addIVx (x : Reg) (s : State) : exec (.addIVx x) s = .next { s with i := s.i + wide (s.reg x) } := rfl

@[simp] theorem exec_ldFVx (x : Reg) (s : State) : exec (.ldFVx x) s = .next { s with i := wide (s.reg x) * 5 } := rfl

/-! ### The instructions that can fail, on each side of the limit -/

theorem exec_ret_used {s : State} {j : Fin 16} (h : s.sp.val = j.val + 1) :
    exec .ret s = .next { s with sp := ⟨j.val, Nat.lt_succ_of_lt j.isLt⟩, pc := s.stack.get j } := by
  simp [exec, execRet, State.pop_used s j h]

theorem exec_ret_empty {s : State} (h : s.sp.val = 0) :
    exec .ret s = .next (s.raiseFatal (.stackUnderflow (s.pc - 2))) := by
  simp [exec, execRet, State.pop_empty s (Fin.ext h)]

theorem exec_call_free {s : State} {j : Fin 16} (h : s.sp.val = j.val) (nnn : BitVec 12) :
    exec (.call nnn) s = .next { s with
      stack := s.stack.set j.val s.pc j.isLt, sp := ⟨j.val + 1, Nat.succ_lt_succ j.isLt⟩, pc := addrOf nnn } := by
  simp [exec, execCall, State.push_free s j h, State.setPc]

theorem exec_call_full {s : State} (h : s.sp.val = 16) (nnn : BitVec 12) :
    exec (.call nnn) s = .next (s.raiseFatal (.stackOverflow (s.pc - 2))) := by
  simp [exec, execCall, State.push_full s h]

/-- The grid and the collision that `Dxyn` finds (44_display_keypad R131). -/
def State.drawn (x y : Reg) (n : BitVec 4) (s : State) : Display × Bool :=
  Display.drawRows (s.reg x).toNat (s.reg y).toNat (s.peekBytes s.i.toNat n.toNat) (s.pix, false)

theorem exec_drwVxVyN_ok {s : State} {n : BitVec 4} (h : n.toNat = 0 ∨ s.i.toNat + n.toNat ≤ 4096) (x y : Reg) :
    exec (.drwVxVyN x y n) s =
      .next ({ s with pix := (s.drawn x y n).1 }.setReg Reg.vf (flagByte (s.drawn x y n).2)) :=
  if_pos ((inRange_iff _ _).2 h)

theorem exec_drwVxVyN_fatal {s : State} {n : BitVec 4} (h : ¬ (n.toNat = 0 ∨ s.i.toNat + n.toNat ≤ 4096)) (x y : Reg) :
    exec (.drwVxVyN x y n) s = .next (s.raiseFatal (.memRange (max s.i.toNat 4096) .read)) :=
  if_neg (mt (inRange_iff _ _).1 h)

theorem exec_ldBVx_ok {s : State} (h : s.i.toNat + 3 ≤ 4096) (x : Reg) :
    exec (.ldBVx x) s = .next (s.pokeBytes s.i.toNat (bcdDigits (s.reg x))) := if_pos ((inRange_iff _ _).2 (.inr h))

theorem exec_ldBVx_fatal {s : State} (h : ¬ s.i.toNat + 3 ≤ 4096) (x : Reg) :
    exec (.ldBVx x) s = .next (s.raiseFatal (.memRange (max s.i.toNat 4096) .write)) :=
  if_neg (mt (inRange_iff _ _).1 (by omega))

theorem exec_ldMemVx_ok {s : State} {x : Reg} (h : s.i.toNat + (x.val + 1) ≤ 4096) :
    exec (.ldMemVx x) s = .next (s.pokeBytes s.i.toNat (s.regsTo x)) := if_pos ((inRange_iff _ _).2 (.inr h))

theorem exec_ldMemVx_fatal {s : State} {x : Reg} (h : ¬ s.i.toNat + (x.val + 1) ≤ 4096) :
    exec (.ldMemVx x) s = .next (s.raiseFatal (.memRange (max s.i.toNat 4096) .write)) :=
  if_neg (mt (inRange_iff _ _).1 (by omega))

theorem exec_ldVxMem_ok {s : State} {x : Reg} (h : s.i.toNat + (x.val + 1) ≤ 4096) :
    exec (.ldVxMem x) s = .next (s.loadRegs x s.i.toNat) := if_pos ((inRange_iff _ _).2 (.inr h))

theorem exec_ldVxMem_fatal {s : State} {x : Reg} (h : ¬ s.i.toNat + (x.val + 1) ≤ 4096) :
    exec (.ldVxMem x) s = .next (s.raiseFatal (.memRange (max s.i.toNat 4096) .read)) :=
  if_neg (mt (inRange_iff _ _).1 (by omega))

/-! ### The values -/

@[simp] theorem wide_toNat (b : Byte) : (wide b).toNat = b.toNat := BitVec.toNat_setWidth_of_le (by decide)

theorem toNat_byte_ofNat {d : Nat} (h : d < 256) : (BitVec.ofNat 8 d).toNat = d :=
  (BitVec.toNat_ofNat d 8).trans (Nat.mod_eq_of_lt h)

theorem shrByte_toNat (a : Byte) : (shrByte a).toNat = a.toNat / 2 := by
  simp [shrByte, BitVec.toNat_ushiftRight, Nat.shiftRight_eq_div_pow]

theorem shlByte_toNat (a : Byte) : (shlByte a).toNat = 2 * a.toNat % 256 := by
  simp [shlByte, BitVec.toNat_shiftLeft, Nat.shiftLeft_eq, Nat.mul_comm]

@[simp] theorem flagByte_toNat (b : Bool) : (flagByte b).toNat = b.toNat := by cases b <;> rfl

theorem lowBitFlag_toNat (a : Byte) : (lowBitFlag a).toNat = a.toNat % 2 := by
  simp only [lowBitFlag, flagByte_toNat, BitVec.getLsbD, Nat.toNat_testBit]
  omega

theorem highBitFlag_toNat (a : Byte) : (highBitFlag a).toNat = a.toNat / 128 := by
  have := a.isLt
  simp only [highBitFlag, flagByte_toNat, BitVec.getLsbD, Nat.toNat_testBit]
  omega

/-! ### Call stack (41_control_transfer R91, R93) -/

/-- Settles O36: the one equation of a return with a slot in use. -/
theorem returnPopsTheStack : Obligations.ReturnPopsTheStack := by
  unfold Obligations.ReturnPopsTheStack
  exact fun s j h => ⟨_, exec_ret_used h, rfl, rfl, frame_with_sp_pc s _ _⟩

/-- Settles O37: the write of the free slot, then of `SP` and `PC`. -/
theorem callPushesThePc : Obligations.CallPushesThePc := by
  unfold Obligations.CallPushesThePc
  intro s j nnn h
  refine ⟨_, exec_call_free h nnn, ?_, rfl, addrOf_toNat nnn, ?_⟩
  · exact (vector_get_set s.stack j j s.pc).trans (if_pos rfl)
  · exact Frame.trans ((frame_with_slot s j s.pc).mono fun _ => Or.inl) ((frame_with_sp_pc _ _ _).mono fun _ => Or.inr)

/-- Settles O38: the return reads the slot that the call wrote (O36, O37). -/
theorem callThenReturnResumes : Obligations.CallThenReturnResumes := by
  unfold Obligations.CallThenReturnResumes
  intro s u t nnn hsp hcall husp hustack
  obtain ⟨t', ht', hslot, htsp, -, hcallFrame⟩ := callPushesThePc s ⟨s.sp.val, hsp⟩ nnn rfl
  obtain rfl := Host.Outcome.next.inj (hcall.symm.trans ht')
  obtain ⟨w, hw, hwsp, hwpc, hretFrame⟩ := returnPopsTheStack u ⟨s.sp.val, hsp⟩ (by rw [husp, htsp])
  refine ⟨w, hw, by rw [hwpc, hustack, hslot], Fin.ext hwsp, fun j hj => ?_⟩
  have hw_u : w.stack.get j = u.stack.get j := hretFrame (.slot j) (by simp)
  have ht_s : t.stack.get j = s.stack.get j := hcallFrame (.slot j) (by simp [Fin.ext_iff, Nat.ne_of_lt hj])
  rw [hw_u, hustack, ht_s]

/-- Settles O41: the sum of a 12-bit and an 8-bit number needs no mask in 16 bits. -/
theorem indexedJumpAddsV0 : Obligations.IndexedJumpAddsV0 := by
  unfold Obligations.IndexedJumpAddsV0
  refine fun s nnn => ⟨decodeWord_fmtNNN (fun _ _ _ => rfl) nnn, _, exec_jpV0Nnn nnn s, ?_, frame_setPc s _⟩
  have hn := nnn.isLt
  have hv := (s.reg 0).isLt
  rw [State.setPc_pc, BitVec.toNat_add, addrOf_toNat, wide_toNat]
  omega

/-! ### Arithmetic, logic, random (42_load_arith_logic) -/

/-- Settles O43: one register write, of the sum. -/
theorem addImmediateSetsNoFlag : Obligations.AddImmediateSetsNoFlag := by
  unfold Obligations.AddImmediateSetsNoFlag
  refine fun s x kk => ⟨decodeWord_fmtXKK (fun _ _ _ => rfl) x kk, ?_⟩
  obtain ⟨t, ht, hx, hframe⟩ := loads_register (exec_addVxKk x kk s)
  exact ⟨t, ht, hx ▸ addByte_toNat _ _, hframe⟩

/-- An instruction that is one register write of a byte with given bits. -/
theorem loads_bits {i : Instr} {s : State} {x : Reg} {b : Byte} {bit : Nat → Bool}
    (h : exec i s = .next (s.setReg x b)) (hb : ∀ k, b.getLsbD k = bit k) :
    ∃ t, exec i s = .next t ∧ (∀ k, (t.reg x).getLsbD k = bit k) ∧ Frame (fun p => p = .reg x) s t := by
  obtain ⟨t, ht, rfl, hframe⟩ := loads_register h
  exact ⟨t, ht, hb, hframe⟩

/-- Settles O44: one register write each, of a byte known bit by bit. -/
theorem logicIsBitwise : Obligations.LogicIsBitwise := by
  unfold Obligations.LogicIsBitwise
  refine fun s x y => ⟨loads_bits (exec_orVxVy x y s) fun k => ?_, loads_bits (exec_andVxVy x y s) fun k => ?_,
    loads_bits (exec_xorVxVy x y s) fun k => ?_⟩
  · exact BitVec.getLsbD_or
  · exact BitVec.getLsbD_and
  · exact BitVec.getLsbD_xor

/-- Settles O47: one write of the result and then of the flag each, of `Vx` alone. -/
theorem shiftsReportTheBitShiftedOut : Obligations.ShiftsReportTheBitShiftedOut := by
  unfold Obligations.ShiftsReportTheBitShiftedOut
  refine fun s x y => ⟨⟨_, exec_shrVx x y s, fun hx => ?_, ?_, frame_setRegFlag s x _ _⟩,
    ⟨_, exec_shlVx x y s, fun hx => ?_, ?_, frame_setRegFlag s x _ _⟩⟩
  · rw [s.reg_setRegFlag_dest hx, shrByte_toNat]
  · rw [s.reg_setRegFlag_vf, lowBitFlag_toNat]
  · rw [s.reg_setRegFlag_dest hx, shlByte_toNat]
  · rw [s.reg_setRegFlag_vf, highBitFlag_toNat]

/-- Where no input is listed, the input taken is the free one (log 3). -/
theorem State.nextInput_of_script_nil {s : State} (h : s.script = []) : s.nextInput = Input.free s.fresh := by
  simp [State.nextInput, h]

/-- Settles O48: one register write of the masked byte of the input. -/
theorem randomByteIsMasked : Obligations.RandomByteIsMasked := by
  unfold Obligations.RandomByteIsMasked
  refine fun s x kk => ⟨?_, fun h => ?_⟩
  · obtain ⟨t, ht, hx, hframe⟩ := loads_register (exec_rndVxKk x kk s)
    exact ⟨t, ht, hx, fun k hk => by simp [hx, hk], hframe⟩
  · rw [State.takeInput_input, State.nextInput_of_script_nil h]
    rfl

/-! ### Address register and memory (43_index_memory) -/

/-- Settles O50: `I` is written alone, and 5 times a byte stays below 65536. -/
theorem indexArithmeticIsUnmasked : Obligations.IndexArithmeticIsUnmasked := by
  unfold Obligations.IndexArithmeticIsUnmasked
  refine fun s x => ⟨⟨_, exec_addIVx x s, ?_, frame_with_i s _⟩, ⟨_, exec_ldFVx x s, ?_, frame_with_i s _⟩⟩
  · rw [BitVec.toNat_add, wide_toNat]
  · have hx := (s.reg x).isLt
    have hfive : (5 : Word).toNat = 5 := rfl
    rw [BitVec.toNat_mul, wide_toNat, hfive]
    omega

/-- Settles O51: the three digits are the bytes stored, each below 256. -/
theorem decimalDigitsAreStored : Obligations.DecimalDigitsAreStored := by
  unfold Obligations.DecimalDigitsAreStored
  intro s x hwf hi
  have hread := State.peek_pokeBytes_self (bcdDigits (s.reg x)) s hwf (a := s.i.toNat)
    (by rw [length_bcdDigits, Config.memSize]; omega)
  have hx := (s.reg x).isLt
  refine ⟨_, exec_ldBVx_ok (by omega) x, ?_, ?_, ?_, frame_pokeBytes s _ (bcdDigits (s.reg x))⟩
  · exact (congrArg BitVec.toNat (hread 0 (by simp))).trans (toNat_byte_ofNat (by omega))
  · exact (congrArg BitVec.toNat (hread 1 (by simp))).trans (toNat_byte_ofNat (by omega))
  · exact (congrArg BitVec.toNat (hread 2 (by simp))).trans (toNat_byte_ofNat (by omega))

/-- Settles O52: the bytes stored are the registers up to `Vx`. -/
theorem blockStoreWritesTheRegisters : Obligations.BlockStoreWritesTheRegisters := by
  unfold Obligations.BlockStoreWritesTheRegisters
  intro s x hwf hi
  refine ⟨_, exec_ldMemVx_ok (by omega), fun r hr => ?_, ?_⟩
  · have hlt : r.val < x.val + 1 := Nat.lt_succ_of_le hr
    rw [State.peek_pokeBytes_self _ s hwf (by rw [State.length_regsTo, Config.memSize]; omega) r.val (by simpa using hlt),
       State.getElem_regsTo s x r hr]
  · simpa using frame_pokeBytes s s.i.toNat (s.regsTo x)

/-- Settles O53: each register up to `Vx` is the byte read for it, and the others are not written. -/
theorem blockLoadReadsTheRegisters : Obligations.BlockLoadReadsTheRegisters := by
  unfold Obligations.BlockLoadReadsTheRegisters
  intro s x hi
  refine ⟨_, exec_ldVxMem_ok (by omega), fun r hr => ?_, frame_loadRegs s x _⟩
  rw [State.reg_loadRegs, if_pos hr]

/-- Settles O54: the load reads at each address the register that the store put there (O52, O53). -/
theorem storeThenLoadRestoresRegisters : Obligations.StoreThenLoadRestoresRegisters := by
  unfold Obligations.StoreThenLoadRestoresRegisters
  intro s t u x hwf hi hstore hui hupeek
  obtain ⟨t', ht', hbytes, -⟩ := blockStoreWritesTheRegisters s x hwf hi
  obtain rfl := Host.Outcome.next.inj (hstore.symm.trans ht')
  obtain ⟨w, hw, hregs, -⟩ := blockLoadReadsTheRegisters u x (by rw [hui]; exact hi)
  exact ⟨w, hw, fun r hr => by rw [hregs r hr, hupeek, hui, hbytes r hr]⟩

/-! ### Keypad and timers (44_display_keypad, 45_timer_access) -/

/-- A skip on a condition adds 2 to `PC` exactly when it holds, and one on its opposite exactly when it does not. -/
theorem skips_on {i j : Instr} {s : State} {c : Bool} (hi : exec i s = .next (s.skipIf c))
    (hj : exec j s = .next (s.skipIf (!c))) :
    (∃ t, exec i s = .next t ∧ t.pc = (if c = true then s.pc + 2 else s.pc) ∧ Frame (fun p => p = .pc) s t) ∧
      ∃ t, exec j s = .next t ∧ t.pc = (if c = true then s.pc else s.pc + 2) ∧ Frame (fun p => p = .pc) s t :=
  ⟨⟨_, hi, by simp, frame_skipIf s _⟩, ⟨_, hj, by cases c <;> rfl, frame_skipIf s _⟩⟩

/-- Settles O58: both forms skip on the one answer of `KeyPressed`, which is the flag of an index up to 15 and the free
answer above. -/
theorem keySkipsFollowTheFlag : Obligations.KeySkipsFollowTheFlag := by
  unfold Obligations.KeySkipsFollowTheFlag
  refine fun s x => ⟨fun k hk => ?_, fun h => ?_, fun h => ?_⟩
  · have hlow : (s.reg x).toNat < 16 := hk ▸ k.isLt
    obtain rfl : k = ⟨(s.reg x).toNat, hlow⟩ := Fin.ext hk.symm
    rw [← s.keyPressed_low _ hlow]
    exact skips_on (exec_skpVx x s) (exec_sknpVx x s)
  · rw [← s.keyPressed_high (s.reg x) (by omega)]
    exact skips_on (exec_skpVx x s) (exec_sknpVx x s)
  · rw [State.takeInput_input, State.nextInput_of_script_nil h]
    rfl

/-- Settles O59: the wait is one assignment to `STATUS`. -/
theorem keyWaitBegins : Obligations.KeyWaitBegins := by
  unfold Obligations.KeyWaitBegins
  exact fun s x => ⟨decodeWord_fmtX 0x0 0xA (fun _ => rfl) x, _, exec_ldVxK x s, rfl, frame_with_status s _⟩

/-- Settles O60: one assignment each, to `Vx`, to `DT` and to `ST`. -/
theorem timerInstructionsCopy : Obligations.TimerInstructionsCopy := by
  unfold Obligations.TimerInstructionsCopy
  exact fun s x => ⟨loads_register (exec_ldVxDt x s), ⟨_, exec_ldDtVx x s, rfl, frame_with_dt s _⟩,
    ⟨_, exec_ldStVx x s, rfl, frame_with_st s _⟩⟩

/-! ### Limits (60_exceptions R151 to R153) -/

/-- An instruction that raises a fatal condition changes `STATUS` alone. -/
theorem raises_fatal {i : Instr} {s : State} {c : FatalCause} (h : exec i s = .next (s.raiseFatal c)) :
    ∃ t, exec i s = .next t ∧ t.status = .fatal c ∧ Frame (fun p => p = .status) s t :=
  ⟨_, h, rfl, frame_raiseFatal s c⟩

/-- Settles O25: the six equations of the instructions beyond their limits. -/
theorem instructionLimitsAreFatal : Obligations.InstructionLimitsAreFatal := by
  unfold Obligations.InstructionLimitsAreFatal
  exact fun s nnn x y n => ⟨fun h => raises_fatal (exec_call_full h nnn), fun h => raises_fatal (exec_ret_empty h),
    fun h => raises_fatal (exec_ldBVx_fatal (by omega) x), fun h => raises_fatal (exec_ldMemVx_fatal (by omega)),
    fun h => raises_fatal (exec_ldVxMem_fatal (by omega)),
    fun hn h => raises_fatal (exec_drwVxVyN_fatal (by omega) x y)⟩

end Sys2Proof.Machine
end

section
/-! PROOFS. The display (44_display_keypad R130, R131): a draw toggles each covered pixel once, because a sprite's toggles
fall on distinct pixels, so that a second draw of the same sprite undoes the first. -/

namespace Sys2Proof.Machine

/-- Settles O55: the grid becomes the blank one, and nothing else is assigned. -/
theorem clearUnlightsEveryPixel : Obligations.ClearUnlightsEveryPixel := by
  unfold Obligations.ClearUnlightsEveryPixel
  refine fun s => ⟨by decide, _, exec_cls s, fun px py => ?_, frame_with_pix s _⟩
  rw [State.pixel_eq_at, Display.at_blank]

theorem Display.at_congr (d : Display) {p q : Nat × Nat} (h : samePixel p q) : d.at p.1 p.2 = d.at q.1 q.2 := by
  obtain ⟨hcol, hrow⟩ := h
  simp [Display.at, hcol, hrow]

/-- The sprite covers exactly the pixels that its toggles fall on. -/
theorem spriteCovers_iff (s : State) (x y : Reg) (n : BitVec 4) (px : Fin 64) (py : Fin 32) :
    spriteCovers s x y n px py ↔
      ∃ p ∈ spriteToggles (s.reg x).toNat (s.reg y).toNat (s.peekBytes s.i.toNat n.toNat), samePixel p (px.val, py.val) := by
  have hpx := Nat.mod_eq_of_lt px.isLt
  have hpy := Nat.mod_eq_of_lt py.isLt
  constructor
  · rintro ⟨row, col, hrow, hcol, hx, hy, hbit⟩
    refine ⟨_, (mem_spriteToggles _ _ _ _).2 ⟨row, col, by simpa using hrow, hcol, ?_, rfl⟩, ?_, ?_⟩
    · rwa [State.getElem_peekBytes]
    · exact hx.trans hpx.symm
    · exact hy.trans hpy.symm
  · rintro ⟨p, hp, hcol', hrow'⟩
    obtain ⟨row, col, hrow, hcol, hbit, rfl⟩ := (mem_spriteToggles _ _ _ _).1 hp
    rw [State.getElem_peekBytes] at hbit
    exact ⟨row, col, by simpa using hrow, hcol, hcol'.trans hpx, hrow'.trans hpy, hbit⟩

/-- What a draw makes of the grid, and the collision it finds. -/
theorem drawn_spec (s : State) (x y : Reg) (n : BitVec 4) :
    (∀ px py, spriteCovers s x y n px py → (s.drawn x y n).1.at px.val py.val = !(s.pixel px py)) ∧
      (∀ px py, ¬ spriteCovers s x y n px py → (s.drawn x y n).1.at px.val py.val = s.pixel px py) ∧
      ((s.drawn x y n).2 = true ↔ ∃ px py, spriteCovers s x y n px py ∧ s.pixel px py = true) := by
  have hn := n.isLt
  have hdistinct := pairwise_spriteToggles (s.reg x).toNat (s.reg y).toNat (s.peekBytes s.i.toNat n.toNat)
    (by rw [State.length_peekBytes]; omega)
  obtain ⟨hcovered, hother, hcollision⟩ := Display.toggles_spec _ hdistinct (s.pix, false)
  simp only [State.drawn, Display.drawRows_eq, spriteCovers_iff, State.pixel_eq_at]
  refine ⟨fun px py => hcovered px.val py.val, fun px py => hother px.val py.val, hcollision.trans ?_⟩
  simp only [Bool.false_eq_true, false_or]
  constructor
  · rintro ⟨p, hp, hlit⟩
    have hsame : samePixel p (p.1 % 64, p.2 % 32) := ⟨(Nat.mod_mod _ _).symm, (Nat.mod_mod _ _).symm⟩
    exact ⟨⟨p.1 % 64, Nat.mod_lt _ (by decide)⟩, ⟨p.2 % 32, Nat.mod_lt _ (by decide)⟩, ⟨p, hp, hsame⟩,
      (Display.at_congr _ hsame).symm.trans hlit⟩
  · rintro ⟨px, py, ⟨p, hp, hsame⟩, hlit⟩
    exact ⟨p, hp, (Display.at_congr _ hsame).trans hlit⟩

/-- Settles O56: the grid and the collision of the draw, with `VF` written last. -/
theorem drawTogglesTheCoveredPixels : Obligations.DrawTogglesTheCoveredPixels := by
  unfold Obligations.DrawTogglesTheCoveredPixels
  intro s x y n h
  obtain ⟨hcovered, hother, hcollision⟩ := drawn_spec s x y n
  have hpixel (px : Fin 64) (py : Fin 32) : ({ s with pix := (s.drawn x y n).1 }.setReg Reg.vf
      (flagByte (s.drawn x y n).2)).pixel px py = (s.drawn x y n).1.at px.val py.val := State.pixel_eq_at _ px py
  refine ⟨_, exec_drwVxVyN_ok h x y, fun px py hc => ?_, fun px py hc => ?_, fun hlit => ?_, fun hlit => ?_, ?_⟩
  · rw [hpixel, hcovered px py hc]
  · rw [hpixel, hother px py hc]
  · rw [State.reg_setReg_same, hcollision.2 hlit]
    rfl
  · rw [State.reg_setReg_same, Bool.eq_false_iff.2 (mt hcollision.1 hlit)]
    rfl
  · exact Frame.trans ((frame_with_pix s _).mono fun _ => Or.inr) ((frame_setReg _ _ _).mono fun _ => Or.inl)

/-- The sprite that a draw reads depends on the coordinates, `I`, and memory alone. -/
theorem spriteCovers_congr {s u : State} {x y x' y' : Reg} (hi : u.i = s.i) (hpeek : ∀ a, u.peek a = s.peek a)
    (hx : u.reg x' = s.reg x) (hy : u.reg y' = s.reg y) (n : BitVec 4) (px : Fin 64) (py : Fin 32) :
    spriteCovers u x' y' n px py ↔ spriteCovers s x y n px py := by
  simp only [spriteCovers, hi, hpeek, hx, hy]

theorem exists_covered_unlit_or (s : State) (x y : Reg) (n : BitVec 4) :
    (∃ px py, spriteCovers s x y n px py ∧ s.pixel px py = false) ∨
      ∀ px py, spriteCovers s x y n px py → s.pixel px py = true := by
  by_contra h
  push Not at h
  obtain ⟨hall, px, py, hc, hs⟩ := h
  exact hall px py hc (Bool.eq_false_iff.2 hs)

/-- Settles O57: out of range neither draw changes a pixel; in range both toggle the same pixels (O56). -/
theorem drawTwiceRestoresTheDisplay : Obligations.DrawTwiceRestoresTheDisplay := by
  unfold Obligations.DrawTwiceRestoresTheDisplay
  intro s t u w x y x' y' n hfirst hpix hi hpeek hx hy hsecond
  by_cases h : n.toNat = 0 ∨ s.i.toNat + n.toNat ≤ 4096
  · have hcov := spriteCovers_congr hi hpeek hx hy n
    obtain ⟨t', ht', ht1, ht2, -⟩ := drawTogglesTheCoveredPixels s x y n h
    obtain ⟨w', hw', hw1, hw2, hlit, hunlit, -⟩ := drawTogglesTheCoveredPixels u x' y' n (by rwa [hi])
    obtain rfl := Host.Outcome.next.inj (hfirst.symm.trans ht')
    obtain rfl := Host.Outcome.next.inj (hsecond.symm.trans hw')
    have hut (px : Fin 64) (py : Fin 32) : u.pixel px py = t.pixel px py := by simp only [State.pixel, hpix]
    have hcovered (px : Fin 64) (py : Fin 32) (hc : spriteCovers s x y n px py) : u.pixel px py = !(s.pixel px py) := by
      rw [hut, ht1 px py hc]
    refine ⟨fun px py => ?_, fun _ => ?_⟩
    · by_cases hc : spriteCovers s x y n px py
      · rw [hw1 px py ((hcov px py).2 hc), hcovered px py hc, Bool.not_not]
      · rw [hw2 px py (mt (hcov px py).1 hc), hut, ht2 px py hc]
    · obtain ⟨px, py, hc, hs⟩ | hall := exists_covered_unlit_or s x y n
      · exact .inl ⟨hlit ⟨px, py, (hcov px py).2 hc, by rw [hcovered px py hc, hs]; rfl⟩, px, py, hc, hs⟩
      · refine .inr ⟨hunlit fun ⟨px, py, hc, hs⟩ => ?_, hall⟩
        have hc' := (hcov px py).1 hc
        rw [hcovered px py hc', hall px py hc'] at hs
        cases hs
  · rw [exec_drwVxVyN_fatal h] at hfirst
    rw [exec_drwVxVyN_fatal (by rwa [hi])] at hsecond
    obtain rfl := Host.Outcome.next.inj hfirst
    obtain rfl := Host.Outcome.next.inj hsecond
    refine ⟨fun px py => ?_, fun hr => absurd (.inr hr) h⟩
    simp [State.pixel, hpix]

end Sys2Proof.Machine
end

section
/-! PROOFS. The guarded accesses to memory (20_memory R41 to R46), the state after reset and after launch
(70_reset_and_hazards R180 to R184), and the outside world's part of a step (60_exceptions R160 to R165). -/

namespace Sys2Proof.Machine

/-! ### Memory -/

theorem memWrite_ok {a : Nat} (h : a < 4096) (u : Byte) (s : State) : memWrite a u s = .ok (s.poke a u) := if_pos h

theorem memWrite_error {a : Nat} (h : ¬ a < 4096) (u : Byte) (s : State) :
    memWrite a u s = .error (.memRange a .write) := if_neg h

theorem frame_poke (s : State) (a : Nat) (u : Byte) : Frame (fun p => p = .byte a) s (s.poke a u) := by
  refine (frame_pokeBytes s a [u]).mono fun p ⟨b, hp, hle, hlt⟩ => ?_
  obtain rfl : b = a := Nat.le_antisymm (Nat.le_of_lt_succ hlt) hle
  exact hp

theorem wordOfBytes_toNat (hi lo : Byte) : (wordOfBytes hi lo).toNat = 256 * hi.toNat + lo.toNat := by
  rw [wordOfBytes, BitVec.toNat_append, ← Nat.shiftLeft_add_eq_or_of_lt lo.isLt, Nat.shiftLeft_eq, Nat.mul_comm]

/-- Settles O7: the check compares the address itself with 4096 (20_memory R41). -/
theorem byteReadIsRangeChecked : Obligations.ByteReadIsRangeChecked := by
  unfold Obligations.ByteReadIsRangeChecked
  exact fun kind a s => ⟨fun h => memRead_ok s (by omega), fun h => memRead_error s (by omega)⟩

/-- Settles O8: the canonical form lists at most one cell for an address, so the byte written is the byte read. -/
theorem byteWriteChangesOneByte : Obligations.ByteWriteChangesOneByte := by
  unfold Obligations.ByteWriteChangesOneByte
  refine fun a u s => ⟨fun ha hwf => ?_, fun ha => memWrite_error (by omega) u s⟩
  have hlt : a < Config.memSize := Nat.lt_succ_of_le ha
  exact ⟨s.poke a u, memWrite_ok hlt u s, s.peek_poke_self hwf, Memory.wf_put hwf hlt, frame_poke s a u⟩

/-- Settles O9: the two reads of a fetch, of which the first to fail reports (20_memory R43, R44). -/
theorem wordReadIsBigEndian : Obligations.WordReadIsBigEndian := by
  unfold Obligations.WordReadIsBigEndian
  refine fun a s => ⟨fun ha => ⟨_, memReadWord_ok s (by omega), wordOfBytes_toNat _ _⟩, fun ha => ?_, fun ha => ?_⟩
  · rw [memReadWord_error s (by omega), ha]
    rfl
  · rw [memReadWord_error s (by omega), Nat.max_eq_left ha]

/-! ### Reset and launch -/

section
variable (font : Vector Byte 80) (haltCheck : Bool)

theorem memWf_resetWith : (State.resetWith font haltCheck).memWf := ⟨List.Pairwise.nil, fun _ h => by cases h⟩

theorem peek_resetWith (a : Nat) : (State.resetWith font haltCheck).peek a = Memory.background font a := rfl

theorem launchWith_of_fits {p : List Byte} (h : p.length ≤ 3584) :
    launchWith font haltCheck (some p) = (State.resetWith font haltCheck).pokeBytes 0x200 p := if_pos h

/-- A source that fails and a program too long leave the same state. -/
theorem launchWith_of_not_fits {source : Option (List Byte)} (h : ∀ p, source = some p → 3584 < p.length) :
    launchWith font haltCheck source = (State.resetWith font haltCheck).raiseFatal .loadFailure := by
  cases source with
  | none => rfl
  | some p => exact if_neg (Nat.not_le_of_lt (h p rfl))

end

/-- Settles O13: no byte is listed, no slot is in use, and nothing waits. -/
theorem resetMeetsTheInvariants : Obligations.ResetMeetsTheInvariants := by
  unfold Obligations.ResetMeetsTheInvariants
  refine fun font haltCheck => ⟨memWf_resetWith font haltCheck, ⟨?_, fun j hj => absurd hj (Nat.not_lt_zero _)⟩, ?_⟩
  · exact Nat.le_of_ble_eq_true rfl
  · intro x hx
    cases hx

/-- Settles O15: no byte is listed, so memory reads as its background, the font and zeros (10_state R29). -/
theorem resetStateIsTheSpecs : Obligations.ResetStateIsTheSpecs := by
  unfold Obligations.ResetStateIsTheSpecs
  refine fun font haltCheck => ⟨_, rfl, rfl, fun a ha => ?_, fun a ha => ?_, fun r => ?_, rfl, rfl, rfl, rfl, rfl, rfl,
    fun px py => ?_, rfl⟩
  · rw [peek_resetWith, Memory.background, dif_pos ha]
  · rw [peek_resetWith, Memory.background, dif_neg (Nat.not_lt.2 ha)]
  · simp [State.reg, State.resetWith, Vector.get_eq_getElem]
  · rw [State.pixel_eq_at]
    exact Display.at_blank _ _

/-- Settles O16: storing bytes in the canonical memory of reset. -/
theorem launchPlacesTheProgram : Obligations.LaunchPlacesTheProgram := by
  unfold Obligations.LaunchPlacesTheProgram
  intro font haltCheck p hp
  have hwf := memWf_resetWith font haltCheck
  have hr : 0x200 + p.length ≤ Config.memSize := by
    rw [Config.memSize]
    omega
  rw [launchWith_of_fits font haltCheck hp]
  exact ⟨State.peek_pokeBytes_self p _ hwf hr, State.wf_pokeBytes p _ hwf hr, frame_pokeBytes _ _ p⟩

/-- Settles O17: the failed launch is an ended run. -/
theorem failedLaunchNeverStarts : Obligations.FailedLaunchNeverStarts := by
  unfold Obligations.FailedLaunchNeverStarts
  intro font haltCheck source h
  rw [launchWith_of_not_fits font haltCheck h]
  exact ⟨_, step_of_ended _ (.inr ⟨.loadFailure, rfl⟩), rfl,
    Frame.trans ((frame_raiseFatal _ _).mono fun _ => Or.inr) ((frame_takeInput _).mono fun _ => Or.inl)⟩

/-! ### The outside world -/

theorem State.iterate_tickST_st (n : Nat) (s : State) : (State.tickST^[n] s).st = ticksDown n s.st := by
  induction n generalizing s with
  | zero => rfl
  | succ n ih => rw [Function.iterate_succ_apply, ih, State.tickST_st, ticksDown]

theorem State.iterate_tickST_soundEvents (n : Nat) (s : State) :
    (State.tickST^[n] s).soundEvents = s.soundEvents + soundOf n s.st := by
  induction n generalizing s with
  | zero => rfl
  | succ n ih =>
    rw [Function.iterate_succ_apply, ih, State.tickST_soundEvents, State.tickST_st, soundOf, Nat.add_assoc]

theorem frame_tickST (s : State) : Frame (fun p => p = .st ∨ p = .sound) s s.tickST := by
  intro p hp
  cases p
  case st => exact absurd (.inl rfl) hp
  case sound => exact absurd (.inr rfl) hp
  all_goals rfl

theorem frame_iterate {changed : Part → Prop} {f : State → State} (h : ∀ s, Frame changed s (f s)) (n : Nat) (s : State) :
    Frame changed s (f^[n] s) := by
  induction n generalizing s with
  | zero => exact Frame.refl _ s
  | succ n ih =>
    rw [Function.iterate_succ_apply]
    exact (h s).trans (ih (f s))

/-- Settles O29: `n` ticks of the state are `n` ticks of the one timer and the events it emits (R162). -/
theorem soundTickCountsDownAndSounds : Obligations.SoundTickCountsDownAndSounds := by
  unfold Obligations.SoundTickCountsDownAndSounds
  refine fun s n => ⟨?_, ?_, frame_iterate frame_tickST n s⟩
  · rw [State.iterate_tickST_st, toNat_ticksDown]
  · rw [State.iterate_tickST_soundEvents, soundOf_eq]

/-- Settles O27: the input's ticks in one part are the ticks taken one by one. -/
theorem inputIsTicksAndKeys : Obligations.InputIsTicksAndKeys := by
  unfold Obligations.InputIsTicksAndKeys
  refine fun s => ⟨?_, ?_, ?_, rfl, rfl, State.nextInput_of_script_nil, frame_takeInput s⟩
  · rw [State.takeInput_dt, State.iterate_tickDT_dt]
  · rw [State.takeInput_st, State.iterate_tickST_st]
  · rw [State.takeInput_soundEvents, State.iterate_tickST_soundEvents]

theorem State.ended_takeInput {s : State} (h : s.ended) : s.takeInput.ended := h

/-- Settles O26: the step of an ended run is the input alone. -/
theorem endedRunMovesOnlyTheOutside : Obligations.EndedRunMovesOnlyTheOutside := by
  unfold Obligations.EndedRunMovesOnlyTheOutside
  exact fun s h => ⟨_, step_of_ended s h, State.ended_takeInput h, rfl, frame_takeInput s⟩

/-- Settles O30: the two cases of the delivery after the input. -/
theorem waitEndsByKeyDelivery : Obligations.WaitEndsByKeyDelivery := by
  unfold Obligations.WaitEndsByKeyDelivery
  refine fun s x hs => ⟨fun k hk => ?_, fun hk => ?_⟩
  · rw [step_of_waitKey s x hs, State.deliverKey_some s.takeInput x k hs hk]
    refine ⟨_, rfl, ?_, rfl, ?_⟩
    · have hreg := State.reg_setReg_same s.takeInput x (BitVec.ofNat 8 k.val)
      exact (congrArg BitVec.toNat hreg).trans (toNat_byte_ofNat (by omega))
    · exact Frame.trans ((frame_takeInput s).mono fun _ => Or.inl)
        (Frame.trans ((frame_setReg _ x _).mono fun _ h => .inr (.inr h))
          ((frame_with_status _ _).mono fun _ h => .inr (.inl h)))
  · rw [step_of_waitKey s x hs, State.deliverKey_none s.takeInput hk]
    exact ⟨_, rfl, hs, frame_takeInput s⟩

/-- A step of an ended run, then the rest of the run. -/
theorem run_succ_of_ended {s : State} (h : s.ended) (n : Nat) :
    Host.Core.run core (n + 1) s = Host.Core.run core n s.takeInput := by
  have hstep : core.step s = .next s.takeInput := step_of_ended s h
  simp only [Host.Core.run, hstep]

/-- Over listed inputs an ended run lowers `DT` by each input's ticks in turn. -/
theorem run_of_ended {inputs : List Input} {s : State} (h : s.ended) (hs : s.script = inputs) :
    ∃ t, Host.Core.run core inputs.length s = .next t ∧ t.status = s.status ∧
      t.dt.toNat = s.dt.toNat - (inputs.map Input.ticksDT).sum := by
  induction inputs generalizing s with
  | nil => exact ⟨s, rfl, rfl, rfl⟩
  | cons input rest ih =>
    have hinput : s.nextInput = input := by simp [State.nextInput, hs]
    obtain ⟨t, ht, hstatus, hdt⟩ := ih (State.ended_takeInput h) (by simp [hs])
    refine ⟨t, (run_succ_of_ended h _).trans ht, hstatus, ?_⟩
    rw [hdt, State.takeInput_dt, toNat_ticksDown, hinput, List.map_cons, List.sum_cons, Nat.sub_sub]

/-- Settles O31: by induction on the listed inputs. -/
theorem delayTimerDrainsAfterTheEnd : Obligations.DelayTimerDrainsAfterTheEnd := by
  unfold Obligations.DelayTimerDrainsAfterTheEnd
  exact fun s h => run_of_ended h rfl

end Sys2Proof.Machine
end

section
/-! PROOFS. Everything one instruction can do (40_execution_cycle R85), said once: `exec` always answers a next state, and
that state is one of sixteen effects on the state before. Who writes what, the flag, and the precise fatal conditions
follow. -/

namespace Sys2Proof

/-- The instructions whose one effect is a write of the register `x` that they name, without a flag. -/
def Instr.Loads (i : Instr) (x : Reg) : Prop :=
  (∃ kk, i = .ldVxKk x kk ∨ i = .addVxKk x kk ∨ i = .rndVxKk x kk) ∨
  (∃ y, i = .ldVxVy x y ∨ i = .orVxVy x y ∨ i = .andVxVy x y ∨ i = .xorVxVy x y) ∨ i = .ldVxDt x

/-- The six instructions that define a flag (10_state R11). -/
def Instr.SetsFlag (i : Instr) : Prop :=
  ∃ x y, i = .addVxVy x y ∨ i = .subVxVy x y ∨ i = .shrVx x y ∨ i = .subnVxVy x y ∨ i = .shlVx x y ∨
    ∃ n, i = .drwVxVyN x y n

/-- The instructions that write `I` (10_state R13). -/
def Instr.WritesIndex (i : Instr) : Prop := (∃ nnn, i = .ldINnn nnn) ∨ (∃ x, i = .addIVx x) ∨ ∃ x, i = .ldFVx x

/-- The instructions that write memory (10_state R20). -/
def Instr.WritesMemory (i : Instr) : Prop := (∃ x, i = .ldBVx x) ∨ ∃ x, i = .ldMemVx x

end Sys2Proof

namespace Sys2Proof.Machine

/-! ### Storing bytes leaves every field but memory -/

section
variable (s : State) (a : Nat) (us : List Byte)

@[simp] theorem State.pokeBytes_v : (s.pokeBytes a us).v = s.v := by rw [State.pokeBytes_eq]
@[simp] theorem State.pokeBytes_i : (s.pokeBytes a us).i = s.i := by rw [State.pokeBytes_eq]
@[simp] theorem State.pokeBytes_pc : (s.pokeBytes a us).pc = s.pc := by rw [State.pokeBytes_eq]
@[simp] theorem State.pokeBytes_dt : (s.pokeBytes a us).dt = s.dt := by rw [State.pokeBytes_eq]
@[simp] theorem State.pokeBytes_st : (s.pokeBytes a us).st = s.st := by rw [State.pokeBytes_eq]
@[simp] theorem State.pokeBytes_sp : (s.pokeBytes a us).sp = s.sp := by rw [State.pokeBytes_eq]
@[simp] theorem State.pokeBytes_stack : (s.pokeBytes a us).stack = s.stack := by rw [State.pokeBytes_eq]
@[simp] theorem State.pokeBytes_pix : (s.pokeBytes a us).pix = s.pix := by rw [State.pokeBytes_eq]
@[simp] theorem State.pokeBytes_keys : (s.pokeBytes a us).keys = s.keys := by rw [State.pokeBytes_eq]
@[simp] theorem State.pokeBytes_status : (s.pokeBytes a us).status = s.status := by rw [State.pokeBytes_eq]
@[simp] theorem State.pokeBytes_prev : (s.pokeBytes a us).prev = s.prev := by rw [State.pokeBytes_eq]
@[simp] theorem State.pokeBytes_soundEvents : (s.pokeBytes a us).soundEvents = s.soundEvents := by rw [State.pokeBytes_eq]
@[simp] theorem State.pokeBytes_haltCheck : (s.pokeBytes a us).haltCheck = s.haltCheck := by rw [State.pokeBytes_eq]
@[simp] theorem State.pokeBytes_font : (s.pokeBytes a us).font = s.font := by rw [State.pokeBytes_eq]
@[simp] theorem State.pokeBytes_input : (s.pokeBytes a us).input = s.input := by rw [State.pokeBytes_eq]
@[simp] theorem State.pokeBytes_script : (s.pokeBytes a us).script = s.script := by rw [State.pokeBytes_eq]
@[simp] theorem State.pokeBytes_fresh : (s.pokeBytes a us).fresh = s.fresh := by rw [State.pokeBytes_eq]

end

/-! ### The effects -/

/-- The instruction is past its limit in `s`, and that is the condition it reports (60_exceptions R151 to R153). -/
inductive PastLimit (s : State) : Instr → FatalCause → Prop
  | ret (h : s.sp.val = 0) : PastLimit s .ret (.stackUnderflow (s.pc - 2))
  | call (nnn : BitVec 12) (h : s.sp.val = 16) : PastLimit s (.call nnn) (.stackOverflow (s.pc - 2))
  | drw (x y : Reg) (n : BitVec 4) (h : ¬ (n.toNat = 0 ∨ s.i.toNat + n.toNat ≤ 4096)) :
      PastLimit s (.drwVxVyN x y n) (.memRange (max s.i.toNat 4096) .read)
  | digits (x : Reg) (h : ¬ s.i.toNat + 3 ≤ 4096) : PastLimit s (.ldBVx x) (.memRange (max s.i.toNat 4096) .write)
  | store (x : Reg) (h : ¬ s.i.toNat + (x.val + 1) ≤ 4096) :
      PastLimit s (.ldMemVx x) (.memRange (max s.i.toNat 4096) .write)
  | load (x : Reg) (h : ¬ s.i.toNat + (x.val + 1) ≤ 4096) :
      PastLimit s (.ldVxMem x) (.memRange (max s.i.toNat 4096) .read)

/-- `Effect s i t`: executing `i` may take `s` to `t`. Each effect says which parts are written and, where it matters to an
invariant, within which bounds. -/
inductive Effect (s : State) : Instr → State → Prop
  | stay (i : Instr) : Effect s i s
  | skip (i : Instr) : Effect s i s.skip
  | jump (i : Instr) (w : Word) (h : w.toNat ≤ 0x10FE) : Effect s i (s.setPc w)
  | pop (j : Fin 16) (h : s.sp.val = j.val + 1) :
      Effect s .ret { s with sp := ⟨j.val, Nat.lt_succ_of_lt j.isLt⟩, pc := s.stack.get j }
  | push (nnn : BitVec 12) (j : Fin 16) (h : s.sp.val = j.val) :
      Effect s (.call nnn) { s with
        stack := s.stack.set j.val s.pc j.isLt, sp := ⟨j.val + 1, Nat.succ_lt_succ j.isLt⟩, pc := addrOf nnn }
  | load {i : Instr} {x : Reg} (b : Byte) (h : i.Loads x) : Effect s i (s.setReg x b)
  | flag {i : Instr} (x : Reg) (b : Byte) (f : Bool) (h : i.SetsFlag) : Effect s i (s.setRegFlag x b (flagByte f))
  | loadBlock (x : Reg) : Effect s (.ldVxMem x) (s.loadRegs x s.i.toNat)
  | clear : Effect s .cls { s with pix := Display.blank }
  | draw (x y : Reg) (n : BitVec 4) (d : Display) (f : Bool) :
      Effect s (.drwVxVyN x y n) ({ s with pix := d }.setReg Reg.vf (flagByte f))
  | index {i : Instr} (w : Word) (h : i.WritesIndex) : Effect s i { s with i := w }
  | store {i : Instr} (us : List Byte) (hr : s.i.toNat + us.length ≤ 4096) (h : i.WritesMemory) :
      Effect s i (s.pokeBytes s.i.toNat us)
  | delay (x : Reg) (b : Byte) : Effect s (.ldDtVx x) { s with dt := b }
  | sound (x : Reg) (b : Byte) : Effect s (.ldStVx x) { s with st := b }
  | wait (x : Reg) : Effect s (.ldVxK x) { s with status := .waitKey x }
  | fatal {i : Instr} {c : FatalCause} (h : PastLimit s i c) : Effect s i (s.raiseFatal c)

theorem Effect.skipIf (s : State) (i : Instr) (c : Bool) : Effect s i (s.skipIf c) := by
  cases c
  · exact .stay i
  · exact .skip i

theorem addrOf_toNat_le (nnn : BitVec 12) : (addrOf nnn).toNat ≤ 0xFFF := by
  have := nnn.isLt
  rw [addrOf_toNat]
  omega

/-- The unmasked target of `Bnnn` (41_control_transfer R98). -/
theorem indexed_target_le (nnn : BitVec 12) (b : Byte) : (addrOf nnn + wide b).toNat ≤ 0x10FE := by
  have hn := addrOf_toNat_le nnn
  have hb := b.isLt
  rw [BitVec.toNat_add, wide_toNat]
  omega

/-- Every instruction answers a next state, and it is one of the effects. -/
theorem exec_effect (i : Instr) (s : State) : ∃ t, exec i s = .next t ∧ Effect s i t := by
  cases i with
  | cls => exact ⟨_, exec_cls s, .clear⟩
  | ret =>
    obtain ⟨h, -⟩ | ⟨j, h, -⟩ := s.pop_cases
    · exact ⟨_, exec_ret_empty h, .fatal (.ret h)⟩
    · exact ⟨_, exec_ret_used h, .pop j h⟩
  | jp nnn => exact ⟨_, exec_jp nnn s, .jump _ _ (Nat.le_trans (addrOf_toNat_le nnn) (by decide))⟩
  | call nnn =>
    obtain ⟨h, -⟩ | ⟨j, h, -⟩ := s.push_cases
    · exact ⟨_, exec_call_full h nnn, .fatal (.call nnn h)⟩
    · exact ⟨_, exec_call_free h nnn, .push nnn j h⟩
  | seVxKk x kk => exact ⟨_, exec_seVxKk x kk s, .skipIf s _ _⟩
  | sneVxKk x kk => exact ⟨_, exec_sneVxKk x kk s, .skipIf s _ _⟩
  | seVxVy x y => exact ⟨_, exec_seVxVy x y s, .skipIf s _ _⟩
  | ldVxKk x kk => exact ⟨_, exec_ldVxKk x kk s, .load _ (.inl ⟨kk, .inl rfl⟩)⟩
  | addVxKk x kk => exact ⟨_, exec_addVxKk x kk s, .load _ (.inl ⟨kk, .inr (.inl rfl)⟩)⟩
  | ldVxVy x y => exact ⟨_, exec_ldVxVy x y s, .load _ (.inr (.inl ⟨y, .inl rfl⟩))⟩
  | orVxVy x y => exact ⟨_, exec_orVxVy x y s, .load _ (.inr (.inl ⟨y, .inr (.inl rfl)⟩))⟩
  | andVxVy x y => exact ⟨_, exec_andVxVy x y s, .load _ (.inr (.inl ⟨y, .inr (.inr (.inl rfl))⟩))⟩
  | xorVxVy x y => exact ⟨_, exec_xorVxVy x y s, .load _ (.inr (.inl ⟨y, .inr (.inr (.inr rfl))⟩))⟩
  | addVxVy x y => exact ⟨_, exec_addVxVy x y s, .flag x _ _ ⟨x, y, by simp⟩⟩
  | subVxVy x y => exact ⟨_, exec_subVxVy x y s, .flag x _ _ ⟨x, y, by simp⟩⟩
  | shrVx x y => exact ⟨_, exec_shrVx x y s, .flag x _ _ ⟨x, y, by simp⟩⟩
  | subnVxVy x y => exact ⟨_, exec_subnVxVy x y s, .flag x _ _ ⟨x, y, by simp⟩⟩
  | shlVx x y => exact ⟨_, exec_shlVx x y s, .flag x _ _ ⟨x, y, by simp⟩⟩
  | sneVxVy x y => exact ⟨_, exec_sneVxVy x y s, .skipIf s _ _⟩
  | ldINnn nnn => exact ⟨_, exec_ldINnn nnn s, .index _ (.inl ⟨nnn, rfl⟩)⟩
  | jpV0Nnn nnn => exact ⟨_, exec_jpV0Nnn nnn s, .jump _ _ (indexed_target_le nnn (s.reg 0))⟩
  | rndVxKk x kk => exact ⟨_, exec_rndVxKk x kk s, .load _ (.inl ⟨kk, .inr (.inr rfl)⟩)⟩
  | drwVxVyN x y n =>
    by_cases h : n.toNat = 0 ∨ s.i.toNat + n.toNat ≤ 4096
    · exact ⟨_, exec_drwVxVyN_ok h x y, .draw x y n _ _⟩
    · exact ⟨_, exec_drwVxVyN_fatal h x y, .fatal (.drw x y n h)⟩
  | skpVx x => exact ⟨_, exec_skpVx x s, .skipIf s _ _⟩
  | sknpVx x => exact ⟨_, exec_sknpVx x s, .skipIf s _ _⟩
  | ldVxDt x => exact ⟨_, exec_ldVxDt x s, .load _ (.inr (.inr rfl))⟩
  | ldVxK x => exact ⟨_, exec_ldVxK x s, .wait x⟩
  | ldDtVx x => exact ⟨_, exec_ldDtVx x s, .delay x _⟩
  | ldStVx x => exact ⟨_, exec_ldStVx x s, .sound x _⟩
  | addIVx x => exact ⟨_, exec_addIVx x s, .index _ (.inr (.inl ⟨x, rfl⟩))⟩
  | ldFVx x => exact ⟨_, exec_ldFVx x s, .index _ (.inr (.inr ⟨x, rfl⟩))⟩
  | ldBVx x =>
    by_cases h : s.i.toNat + 3 ≤ 4096
    · exact ⟨_, exec_ldBVx_ok h x, .store _ h (.inl ⟨x, rfl⟩)⟩
    · exact ⟨_, exec_ldBVx_fatal h x, .fatal (.digits x h)⟩
  | ldMemVx x =>
    by_cases h : s.i.toNat + (x.val + 1) ≤ 4096
    · exact ⟨_, exec_ldMemVx_ok h, .store _ (by rwa [State.length_regsTo]) (.inr ⟨x, rfl⟩)⟩
    · exact ⟨_, exec_ldMemVx_fatal h, .fatal (.store x h)⟩
  | ldVxMem x =>
    by_cases h : s.i.toNat + (x.val + 1) ≤ 4096
    · exact ⟨_, exec_ldVxMem_ok h, .loadBlock x⟩
    · exact ⟨_, exec_ldVxMem_fatal h, .fatal (.load x h)⟩
  | ignored w => exact ⟨_, exec_ignored w s, .stay _⟩

/-- What an answer of `exec` tells. -/
theorem effect_of_exec {i : Instr} {s t : State} (h : exec i s = .next t) : Effect s i t := by
  obtain ⟨u, hu, heffect⟩ := exec_effect i s
  obtain rfl := Host.Outcome.next.inj (h.symm.trans hu)
  exact heffect

/-! ### Who writes each part -/

section
variable {s t : State} {i : Instr} (h : Effect s i t)
include h

theorem Effect.writer_of_i (hne : t.i ≠ s.i) : i.WritesIndex := by
  cases h
  case index w h => exact h
  all_goals simp at hne

theorem Effect.writer_of_dt (hne : t.dt ≠ s.dt) : ∃ x, i = .ldDtVx x := by
  cases h
  case delay x b => exact ⟨x, rfl⟩
  all_goals simp at hne

theorem Effect.writer_of_st (hne : t.st ≠ s.st) : ∃ x, i = .ldStVx x := by
  cases h
  case sound x b => exact ⟨x, rfl⟩
  all_goals simp at hne

theorem Effect.writer_of_sp (hne : t.sp ≠ s.sp) : i = .ret ∨ ∃ nnn, i = .call nnn := by
  cases h
  case pop => exact .inl rfl
  case push nnn j h => exact .inr ⟨nnn, rfl⟩
  all_goals simp at hne

theorem Effect.writer_of_stack (hne : t.stack ≠ s.stack) : ∃ nnn, i = .call nnn := by
  cases h
  case push nnn j h => exact ⟨nnn, rfl⟩
  all_goals simp at hne

/-- Memory changes by a store in range alone. -/
theorem Effect.mem_cases :
    t.mem = s.mem ∨ i.WritesMemory ∧ ∃ us, s.i.toNat + us.length ≤ 4096 ∧ t = s.pokeBytes s.i.toNat us := by
  cases h
  case store us hr h => exact .inr ⟨h, us, hr, rfl⟩
  all_goals exact .inl rfl

theorem Effect.writer_of_pix (hne : t.pix ≠ s.pix) : i = .cls ∨ ∃ x y n, i = .drwVxVyN x y n := by
  cases h
  case clear => exact .inl rfl
  case draw x y n d f => exact .inr ⟨x, y, n, rfl⟩
  all_goals simp at hne

/-- The parts that no instruction writes. -/
theorem Effect.unwritten : t.keys = s.keys ∧ t.soundEvents = s.soundEvents ∧ t.prev = s.prev ∧ t.font = s.font ∧
    t.haltCheck = s.haltCheck ∧ t.fresh = s.fresh := by
  cases h <;> simp

/-- The run state changes by a wait or past a limit alone. -/
theorem Effect.status_cases :
    t.status = s.status ∨ (∃ x, i = .ldVxK x ∧ t.status = .waitKey x) ∨ ∃ c, PastLimit s i c ∧ t = s.raiseFatal c := by
  cases h
  case wait x => exact .inr (.inl ⟨x, rfl, rfl⟩)
  case fatal c h => exact .inr (.inr ⟨c, h, rfl⟩)
  all_goals exact .inl (by simp)

end

/-- Settles O32: part by part, the effects that write it. -/
theorem eachPartHasItsWriters : Obligations.EachPartHasItsWriters := by
  unfold Obligations.EachPartHasItsWriters
  intro i s t hexec
  have h := effect_of_exec hexec
  obtain ⟨hkeys, hsound, hprev, hfont, hhalt, -⟩ := h.unwritten
  exact ⟨h.writer_of_i, h.writer_of_dt, h.writer_of_st, h.writer_of_sp, h.writer_of_stack,
    fun hne => (h.mem_cases.resolve_left hne).1, h.writer_of_pix, hkeys, hsound, hprev, hfont, hhalt⟩

/-- Settles O33: the register writes name their destination, and the flag writes end in a flag. -/
theorem flagHasSixWriters : Obligations.FlagHasSixWriters := by
  unfold Obligations.FlagHasSixWriters
  intro i s t hexec hne
  cases effect_of_exec hexec
  case load x b h =>
    obtain rfl : Reg.vf = x := by
      by_contra hx
      simp [hx] at hne
    obtain h | h | h := h
    · exact .inr (.inl h)
    · exact .inr (.inr (.inl h))
    · exact .inr (.inr (.inr (.inl h)))
  case loadBlock x =>
    have hx : Reg.vf ≤ x := by
      by_contra hx
      simp [hx] at hne
    obtain rfl : x = Reg.vf := Fin.le_antisymm (Fin.le_last x) hx
    exact .inr (.inr (.inr (.inr rfl)))
  case flag x b f h => exact .inl ⟨h, by simpa using flagByte_cases f⟩
  case draw x y n d f => exact .inl ⟨⟨x, y, by simp⟩, by simpa using flagByte_cases f⟩
  all_goals simp [State.reg] at hne

/-- Settles O24: the effects that end in a fatal status are those of an instruction past its limit. -/
theorem fatalConditionsArePrecise : Obligations.FatalConditionsArePrecise := by
  unfold Obligations.FatalConditionsArePrecise
  intro i s t c hexec ht hs
  obtain hsame | ⟨x, -, hwait⟩ | ⟨d, hlimit, rfl⟩ := (effect_of_exec hexec).status_cases
  · exact absurd (hsame.symm.trans ht) hs
  · cases hwait.symm.trans ht
  · obtain rfl : d = c := Status.fatal.inj ht
    refine ⟨frame_raiseFatal s d, ?_⟩
    cases hlimit with
    | ret h => exact .inl ⟨rfl, h, rfl⟩
    | call nnn h => exact .inr (.inl ⟨nnn, rfl, h, rfl⟩)
    | drw x y n h => exact .inr (.inr (.inl ⟨x, y, n, rfl, by omega, by omega, rfl⟩))
    | digits x h => exact .inr (.inr (.inr (.inl ⟨x, rfl, by omega, rfl⟩)))
    | store x h => exact .inr (.inr (.inr (.inr (.inl ⟨x, rfl, by omega, rfl⟩))))
    | load x h => exact .inr (.inr (.inr (.inr (.inr ⟨x, rfl, by omega, rfl⟩))))

end Sys2Proof.Machine
end

section
/-! PROOFS. The execution cycle (40_execution_cycle R80 to R85) and the invariants of every step: each case of a step is the
outside world's part, a change of the status, or one effect of an instruction on the advanced state. -/

namespace Sys2Proof

/-- A word is its family and its low three digits. -/
theorem word_of_family_and_address (w : Word) : fmtNNN (famOf w) (w.extractLsb' 0 12) = w := by
  refine BitVec.eq_of_getLsbD_eq fun i hi => ?_
  simp only [fmtNNN, famOf, BitVec.getLsbD_append, BitVec.getLsbD_extractLsb']
  interval_cases i <;> simp

/-- A word of family 1 is the jump to its low three digits (41_control_transfer R92). -/
theorem decodeWord_of_family_one {w : Word} (h : famOf w = 1) : decodeWord w = .jp (w.extractLsb' 0 12) := by
  conv_lhs => rw [← word_of_family_and_address w, h]
  exact decodeWord_fmtNNN (fun _ _ _ => rfl) _

end Sys2Proof

namespace Sys2Proof.Machine

/-! ### The halt check -/

/-- The halt check stops on the second of two equal words of family 1 (40_execution_cycle R82). -/
theorem State.haltsOn_iff (s : State) (w : Word) :
    s.haltsOn w = true ↔ s.prev = some w ∧ famOf w = 1 ∧ s.haltCheck = true := by
  cases hp : s.prev with
  | none => simp [State.haltsOn, isHaltPair, hp]
  | some q =>
    simp only [State.haltsOn, isHaltPair, hp, Bool.and_eq_true, decide_eq_true_eq, Option.some.injEq]
    constructor
    · rintro ⟨⟨⟨hq, hw⟩, haddr⟩, hcheck⟩
      refine ⟨?_, hw, hcheck⟩
      rw [← word_of_family_and_address q, ← word_of_family_and_address w, hq, hw, haddr]
    · rintro ⟨rfl, hw, hcheck⟩
      exact ⟨⟨⟨hw, hw⟩, rfl⟩, hcheck⟩

/-- Settles O21: the pair meets the halt check's condition but for `HALT_CHECK`, and its word is a jump. -/
theorem equalJumpPairHalts : Obligations.EqualJumpPairHalts := by
  unfold Obligations.EqualJumpPairHalts
  intro s hs hp hfam hprev
  rw [step_of_running s hs hp]
  cases hcheck : s.haltCheck with
  | true =>
    rw [if_pos ((s.haltsOn_iff _).2 ⟨hprev, hfam, hcheck⟩)]
    refine ⟨_, rfl, fun _ => ⟨rfl, ?_⟩, nofun⟩
    exact Frame.trans ((frame_takeInput s).mono fun _ => Or.inl) ((frame_with_status _ _).mono fun _ => Or.inr)
  | false =>
    rw [if_neg (by simp [s.haltsOn_iff, hcheck]), decodeWord_of_family_one hfam, exec_jp]
    refine ⟨_, rfl, nofun, fun _ => ⟨hs, ?_⟩⟩
    rw [State.setPc_pc, addrOf_toNat, BitVec.extractLsb'_toNat, Nat.shiftRight_zero]

/-! ### The cycle -/

/-- Settles O18: the step's equation where a word is fetched and does not halt. -/
theorem stepRunsTheDecodedInstruction : Obligations.StepRunsTheDecodedInstruction := by
  unfold Obligations.StepRunsTheDecodedInstruction
  intro s i hs hp hd hh
  obtain rfl : decodeWord s.wordAtPc = i := (Prod.mk.inj (Except.ok.inj hd)).1
  refine ⟨?_, State.advance_prev _ _, advance_pc_toNat s.takeInput _ hp, frame_takeInput_advance s _⟩
  simp [step_of_running s hs hp, hh]

/-- Settles O20: the step's equation where no word can be fetched. -/
theorem fetchOutOfRangeIsFatal : Obligations.FetchOutOfRangeIsFatal := by
  unfold Obligations.FetchOutOfRangeIsFatal
  exact fun s hs hp => ⟨_, step_of_fetch_out_of_range s hs (by omega), rfl,
    Frame.trans ((frame_takeInput s).mono fun _ => Or.inl) ((frame_raiseFatal _ _).mono fun _ => Or.inr)⟩

section
variable (s : State) (w : Word)

theorem State.placeWord_pc_le : (s.placeWord w).pc.toNat ≤ 4094 := by
  simp only [State.placeWord, Config.memSize]
  split
  · omega
  · decide

/-- In the canonical form the word placed is the word to be fetched. -/
theorem State.wordAtPc_placeWord (h : s.memWf) : (s.placeWord w).wordAtPc = w := by
  have hp := s.placeWord_pc_le w
  generalize ha : (s.placeWord w).pc = a at hp
  have hread := State.peek_pokeBytes_self [hiByte w, loByte w] s h (a := a.toNat)
    (by simp only [List.length_cons, List.length_nil, Config.memSize]; omega)
  have hpeek (b : Nat) : (s.placeWord w).peek b = (s.pokeBytes a.toNat [hiByte w, loByte w]).peek b := by rw [← ha]; rfl
  rw [State.wordAtPc, ha, hpeek, hpeek]
  exact (congrArg₂ wordOfBytes (hread 0 (by simp)) (hread 1 (by simp))).trans (wordOfBytes_bytes w)

theorem decodeTableWord_eq {n : Nat} (h : n < 65536) : decodeTableWord 16 n = some (decodeWord (BitVec.ofNat 16 n)) := by
  simp [decodeTableWord, decode, Nat.mod_eq_of_lt h]

theorem State.withFetchWord_eq {n : Nat} (h : n < 65536) : s.withFetchWord 16 n = s.placeWord (BitVec.ofNat 16 n) := by
  rw [State.withFetchWord, Nat.mod_eq_of_lt (show n < 2 ^ 16 from h)]

end

/-- Settles O19: the word stands where the fetch reads it, and no `PREV` precedes it for the halt check. -/
theorem placedWordRunsNext : Obligations.PlacedWordRunsNext := by
  unfold Obligations.PlacedWordRunsNext
  intro s n hn hwf
  refine ⟨decodeTableWord_eq hn, ?_⟩
  rw [s.withFetchWord_eq hn]
  generalize BitVec.ofNat 16 n = w
  rw [step_of_running (s.placeWord w) rfl (s.placeWord_pc_le w), s.wordAtPc_placeWord w hwf]
  exact if_neg (by simp [State.haltsOn_iff, State.placeWord])

/-! ### Every step answers a next state -/

theorem State.deliverKey_cases (s : State) :
    s.deliverKey = s ∨ ∃ x k, s.status = .waitKey x ∧ s.input.delivery = some k ∧
      s.deliverKey = { s.setReg x (BitVec.ofNat 8 k.val) with status := .running } := by
  unfold State.deliverKey
  split
  next x k hs hk => exact .inr ⟨x, k, hs, hk, rfl⟩
  next => exact .inl rfl

theorem step_next (s : State) : ∃ t, step s = .next t := by
  cases hs : s.status with
  | running =>
    by_cases hp : s.pc.toNat ≤ 4094
    · rw [step_of_running s hs hp]
      split
      · exact ⟨_, rfl⟩
      · obtain ⟨t, ht, -⟩ := exec_effect (decodeWord s.wordAtPc) (s.takeInput.advance s.wordAtPc)
        exact ⟨t, ht⟩
    · exact ⟨_, step_of_fetch_out_of_range s hs hp⟩
  | waitKey x => exact ⟨_, step_of_waitKey s x hs⟩
  | halted => exact ⟨_, step_of_ended s (.inl hs)⟩
  | fatal c => exact ⟨_, step_of_ended s (.inr ⟨c, hs⟩)⟩

/-- The input alone counts, and nothing of a step writes a parameter. -/
theorem step_counts_one_input {s t : State} (hstep : step s = .next t) :
    t.fresh = s.fresh + 1 ∧ t.font = s.font ∧ t.haltCheck = s.haltCheck := by
  obtain ⟨-, rfl⟩ | ⟨x, -, rfl⟩ | ⟨-, -, rfl⟩ | ⟨-, -, -, rfl⟩ | ⟨-, -, -, hexec⟩ := step_cases hstep
  · exact ⟨rfl, rfl, rfl⟩
  · obtain h | ⟨y, k, -, -, h⟩ := s.takeInput.deliverKey_cases <;> rw [h] <;> exact ⟨rfl, rfl, rfl⟩
  · exact ⟨rfl, rfl, rfl⟩
  · exact ⟨rfl, rfl, rfl⟩
  · obtain ⟨-, -, -, hfont, hcheck, hfresh⟩ := (effect_of_exec hexec).unwritten
    exact ⟨hfresh, hfont, hcheck⟩

/-- Settles O14: every status has its step, and every instruction its effect. -/
theorem everyStepAnswersNext : Obligations.EveryStepAnswersNext := by
  unfold Obligations.EveryStepAnswersNext
  intro s
  obtain ⟨t, ht⟩ := step_next s
  exact ⟨t, ht, step_counts_one_input ht⟩

/-! ### Invariants -/

/-- Settles O22: no effect of an instruction halts. -/
theorem onlyTheHaltCheckHalts : Obligations.OnlyTheHaltCheckHalts := by
  unfold Obligations.OnlyTheHaltCheckHalts
  intro s t hs hstep ht
  obtain ⟨hend, -⟩ | ⟨x, hwait, -⟩ | ⟨-, -, rfl⟩ | ⟨-, hp, hh, rfl⟩ | ⟨-, -, -, hexec⟩ := step_cases hstep
  · obtain h | ⟨c, h⟩ := hend <;> cases hs.symm.trans h
  · cases hs.symm.trans hwait
  · cases ht
  · obtain ⟨hprev, hfam, hcheck⟩ := (s.haltsOn_iff _).1 hh
    exact ⟨hcheck, hp, hprev, hfam, rfl, rfl⟩
  · obtain hsame | ⟨x, -, hwait⟩ | ⟨c, -, rfl⟩ := (effect_of_exec hexec).status_cases
    · cases ht.symm.trans (hsame.trans hs)
    · cases ht.symm.trans hwait
    · cases ht

theorem Effect.keeps_memWf {s t : State} {i : Instr} (h : Effect s i t) (hs : s.memWf) : t.memWf := by
  obtain ⟨-, -, -, hfont, -⟩ := h.unwritten
  obtain hmem | ⟨-, us, hr, rfl⟩ := h.mem_cases
  · rwa [State.memWf, hfont, hmem]
  · exact State.wf_pokeBytes us s hs hr

/-- Settles O10: only a store in range writes memory, and it keeps the canonical form. -/
theorem stepKeepsMemoryCanonical : Obligations.StepKeepsMemoryCanonical := by
  unfold Obligations.StepKeepsMemoryCanonical
  intro s t hs hstep
  obtain ⟨-, rfl⟩ | ⟨x, -, rfl⟩ | ⟨-, -, rfl⟩ | ⟨-, -, -, rfl⟩ | ⟨-, -, -, hexec⟩ := step_cases hstep
  · exact hs
  · obtain h | ⟨y, k, -, -, h⟩ := s.takeInput.deliverKey_cases <;> rw [h] <;> exact hs
  · exact hs
  · exact hs
  · exact (effect_of_exec hexec).keeps_memWf hs

/-- From an advanced `PC`, at most `0x1000`, every instruction keeps the bound: a skip adds 2, a jump's target is below
`0x10FF`, and a return address is a `PC` that was advanced. -/
theorem Effect.keeps_pcBound {s t : State} {i : Instr} (h : Effect s i t) (hpc : s.pc.toNat ≤ 0x1000) (hs : s.pcBound) :
    t.pcBound := by
  obtain ⟨hle, hslots⟩ := hs
  cases h
  case skip =>
    refine ⟨?_, hslots⟩
    have htwo : (2 : Word).toNat = 2 := rfl
    rw [State.skip_pc, BitVec.toNat_add, htwo]
    omega
  case jump w hw => exact ⟨hw, hslots⟩
  case pop j hj =>
    exact ⟨Nat.le_trans (hslots j (by omega)) (by decide), fun k hk => hslots k (Nat.lt_trans hk (show j.val < s.sp.val by omega))⟩
  case push nnn j hj =>
    refine ⟨Nat.le_trans (addrOf_toNat_le nnn) (by decide), fun k hk => ?_⟩
    simp only [vector_get_set]
    split
    · exact hpc
    · next hne =>
      have hkj : k.val ≠ j.val := fun h => hne (Fin.ext h)
      have hlt : k.val < j.val + 1 := hk
      exact hslots k (by omega)
  case store us hr hw => simpa [State.pcBound] using And.intro hle hslots
  all_goals exact ⟨hle, hslots⟩

/-- Settles O11: a fetch succeeds only up to 4094, so every instruction starts from an advanced `PC` of at most
`0x1000`. -/
theorem stepKeepsPcBound : Obligations.StepKeepsPcBound := by
  unfold Obligations.StepKeepsPcBound
  intro s t hs hstep
  obtain ⟨-, rfl⟩ | ⟨x, -, rfl⟩ | ⟨-, -, rfl⟩ | ⟨-, -, -, rfl⟩ | ⟨-, hp, -, hexec⟩ := step_cases hstep
  · exact hs
  · obtain h | ⟨y, k, -, -, h⟩ := s.takeInput.deliverKey_cases <;> rw [h] <;> exact hs
  · exact hs
  · exact hs
  · have hadv := advance_pc_toNat s.takeInput s.wordAtPc hp
    simp only [State.takeInput_pc] at hadv
    exact (effect_of_exec hexec).keeps_pcBound (by omega) ⟨by omega, hs.2⟩

/-- Settles O12: a wait begins by an `Fx0A` alone, whose word the advance has put into `PREV`. -/
theorem stepKeepsWaitShape : Obligations.StepKeepsWaitShape := by
  unfold Obligations.StepKeepsWaitShape
  intro s t hs hstep y hy
  obtain ⟨-, rfl⟩ | ⟨x, -, rfl⟩ | ⟨-, -, rfl⟩ | ⟨-, -, -, rfl⟩ | ⟨hrun, -, -, hexec⟩ := step_cases hstep
  · exact hs y hy
  · obtain h | ⟨x', k, -, -, h⟩ := s.takeInput.deliverKey_cases <;> rw [h] at hy ⊢
    · exact hs y hy
    · cases hy
  · cases hy
  · cases hy
  · have h := effect_of_exec hexec
    obtain ⟨-, -, hprev, -⟩ := h.unwritten
    obtain hsame | ⟨x, hi, hwait⟩ | ⟨c, -, rfl⟩ := h.status_cases
    · cases hy.symm.trans (hsame.trans hrun)
    · obtain rfl : y = x := Status.waitKey.inj (hy.symm.trans hwait)
      rw [hprev, State.advance_prev, ← hi, encode_decodeWord]
    · cases hy

end Sys2Proof.Machine
end

section
/-! PROOFS. What no instruction can observe: `ST` and the sound events (10_state R17), and the stack slots at or above `SP`
(R18). All three are parts that every instruction but a return, a call and the load of `ST` carries along unread. -/

namespace Sys2Proof.Machine

/-- The state with other contents of the parts that are carried along. -/
def State.withHidden (stack : Vector Word 16) (st : Byte) (soundEvents : Nat) (s : State) : State :=
  { s with stack := stack, st := st, soundEvents := soundEvents }

/-- The three instructions that have to do with the hidden parts. -/
def usesHidden : Instr → Bool
  | .ret => true
  | .call _ => true
  | .ldStVx _ => true
  | _ => false

theorem usesHidden_cases (i : Instr) :
    i = .ret ∨ (∃ nnn, i = .call nnn) ∨ (∃ x, i = .ldStVx x) ∨ usesHidden i = false := by
  cases i
  case ret => exact .inl rfl
  case call nnn => exact .inr (.inl ⟨nnn, rfl⟩)
  case ldStVx x => exact .inr (.inr (.inl ⟨x, rfl⟩))
  all_goals exact .inr (.inr (.inr rfl))

section
variable (stack : Vector Word 16) (st : Byte) (n : Nat)

theorem State.skipIf_withHidden (s : State) (c : Bool) :
    (s.withHidden stack st n).skipIf c = (s.skipIf c).withHidden stack st n := by
  cases c <;> rfl

theorem State.pokeBytes_withHidden (a : Nat) (us : List Byte) (s : State) :
    (s.withHidden stack st n).pokeBytes a us = (s.pokeBytes a us).withHidden stack st n := by
  induction us generalizing a s with
  | nil => rfl
  | cons u rest ih => exact ih (a + 1) (s.poke a u)

/-- Both sides of a range check carry an operation along when each of their results does. -/
theorem guarded_next (f : State → State) {c : Bool} {a b t : State}
    (h : (if c then .next a else .next b : Result) = .next t) :
    (if c then .next (f a) else .next (f b) : Result) = .next (f t) := by
  cases c <;> exact congrArg (fun u => Host.Outcome.next (f u)) (Host.Outcome.next.inj h)

/-- The other instructions carry the hidden parts along: the answer differs in them alone. -/
theorem exec_withHidden {i : Instr} (hi : usesHidden i = false) {s t : State} (h : exec i s = .next t) :
    exec i (s.withHidden stack st n) = .next (t.withHidden stack st n) := by
  have skip (c : Bool) (hc : (.next (s.skipIf c) : Result) = .next t) :
      (.next ((s.withHidden stack st n).skipIf c) : Result) = .next (t.withHidden stack st n) := by
    rw [State.skipIf_withHidden, Host.Outcome.next.inj hc]
  have store (c : Bool) (us : List Byte) (b : State)
      (hc : (if c then .next (s.pokeBytes s.i.toNat us) else .next b : Result) = .next t) :
      (if c then .next ((s.withHidden stack st n).pokeBytes s.i.toNat us) else .next (b.withHidden stack st n) : Result) =
        .next (t.withHidden stack st n) := by
    rw [State.pokeBytes_withHidden]
    exact guarded_next _ hc
  cases i
  case ret => cases hi
  case call => cases hi
  case ldStVx => cases hi
  case seVxKk => exact skip _ h
  case sneVxKk => exact skip _ h
  case seVxVy => exact skip _ h
  case sneVxVy => exact skip _ h
  case skpVx => exact skip _ h
  case sknpVx => exact skip _ h
  case ldBVx => exact store _ _ _ h
  case ldMemVx => exact store _ _ _ h
  case drwVxVyN => exact guarded_next (State.withHidden stack st n) h
  case ldVxMem => exact guarded_next (State.withHidden stack st n) h
  all_goals
    obtain rfl := Host.Outcome.next.inj h
    rfl

end

/-- What is carried along besides: an instruction that does not use the hidden parts keeps them, and `SP`. -/
theorem Effect.keeps_hidden {i : Instr} {s t : State} (h : Effect s i t) (hi : usesHidden i = false) :
    t.stack = s.stack ∧ t.st = s.st ∧ t.sp = s.sp := by
  refine ⟨?_, ?_, ?_⟩ <;> by_contra hne
  · obtain ⟨nnn, rfl⟩ := h.writer_of_stack hne
    cases hi
  · obtain ⟨x, rfl⟩ := h.writer_of_st hne
    cases hi
  · obtain rfl | ⟨nnn, rfl⟩ := h.writer_of_sp hne <;> cases hi

/-- Stacks that agree below a slot agree up to it once both hold the same word there. -/
theorem slots_agree_after_write {a b : Vector Word 16} {j k : Fin 16}
    (h : ∀ k : Fin 16, k.val < j.val → a.get k = b.get k) (w : Word) (hk : k.val < j.val + 1) :
    (a.set j.val w j.isLt).get k = (b.set j.val w j.isLt).get k := by
  rw [vector_get_set, vector_get_set]
  split
  · rfl
  next hne => exact h k (Nat.lt_of_le_of_ne (Nat.le_of_lt_succ hk) fun hkj => hne (Fin.ext hkj))

/-- From states that agree but for the hidden parts, with the slots below `SP` among what they agree on, every instruction
goes to such states: a return reads the slot below `SP`, a call writes the slot at `SP` before it raises `SP` over it, and
the load of `ST` overwrites it. -/
theorem exec_hides {i : Instr} {s t : State} {stack : Vector Word 16}
    (hslots : ∀ j : Fin 16, j.val < s.sp.val → stack.get j = s.stack.get j) (h : exec i s = .next t) (st : Byte) (n : Nat) :
    ∃ stack' st', exec i (s.withHidden stack st n) = .next (t.withHidden stack' st' n) ∧
      (∀ j : Fin 16, j.val < t.sp.val → stack'.get j = t.stack.get j) ∧ (stack = s.stack → stack' = t.stack) ∧
      (st = s.st → st' = t.st) := by
  obtain rfl | ⟨nnn, rfl⟩ | ⟨x, rfl⟩ | hi := usesHidden_cases i
  · obtain ⟨hsp, -⟩ | ⟨j, hsp, -⟩ := s.pop_cases
    · rw [exec_ret_empty hsp] at h
      obtain rfl := Host.Outcome.next.inj h
      exact ⟨stack, st, exec_ret_empty (s := s.withHidden stack st n) hsp, hslots, id, id⟩
    · have hpc : stack.get j = s.stack.get j := hslots j (by omega)
      rw [exec_ret_used hsp, ← hpc] at h
      obtain rfl := Host.Outcome.next.inj h
      exact ⟨stack, st, exec_ret_used (s := s.withHidden stack st n) hsp,
        fun k hk => hslots k (Nat.lt_trans hk (show j.val < s.sp.val by omega)), id, id⟩
  · obtain ⟨hsp, -⟩ | ⟨j, hsp, -⟩ := s.push_cases
    · rw [exec_call_full hsp] at h
      obtain rfl := Host.Outcome.next.inj h
      exact ⟨stack, st, exec_call_full (s := s.withHidden stack st n) hsp nnn, hslots, id, id⟩
    · rw [exec_call_free hsp] at h
      obtain rfl := Host.Outcome.next.inj h
      exact ⟨stack.set j.val s.pc j.isLt, st, exec_call_free (s := s.withHidden stack st n) hsp nnn,
        fun k hk => slots_agree_after_write (fun k hk => hslots k (hsp ▸ hk)) s.pc hk,
        fun hs => congrArg (fun v : Vector Word 16 => v.set j.val s.pc j.isLt) hs, id⟩
  · obtain rfl := Host.Outcome.next.inj h
    exact ⟨stack, s.reg x, exec_ldStVx x _, hslots, id, fun _ => rfl⟩
  · obtain ⟨hstack, hst, hsp⟩ := (effect_of_exec h).keeps_hidden hi
    refine ⟨stack, st, exec_withHidden stack st n hi h, fun j hj => ?_, fun hs => hs.trans hstack.symm,
      fun hs => hs.trans hst.symm⟩
    rw [hstack]
    exact hslots j (hsp ▸ hj)

theorem frame_withHidden_sound (s : State) (st : Byte) (n : Nat) :
    Frame (fun p => p = .st ∨ p = .sound) s (s.withHidden s.stack st n) := by
  intro p hp
  cases p
  case st => exact absurd (.inl rfl) hp
  case sound => exact absurd (.inr rfl) hp
  all_goals rfl

theorem frame_withHidden_stack {s : State} {stack : Vector Word 16}
    (h : ∀ j : Fin 16, j.val < s.sp.val → stack.get j = s.stack.get j) :
    Frame (fun p => ∃ j : Fin 16, p = .slot j ∧ s.sp.val ≤ j.val) s (s.withHidden stack s.st s.soundEvents) := by
  intro p hp
  cases p
  case slot j => exact h j (Nat.lt_of_not_le fun hj => hp ⟨j, rfl, hj⟩)
  all_goals rfl

/-- Settles O34: with the same stack, the two runs end with the same stack. -/
theorem noInstructionReadsTheSoundTimer : Obligations.NoInstructionReadsTheSoundTimer := by
  unfold Obligations.NoInstructionReadsTheSoundTimer
  intro i s t b n h
  obtain ⟨stack', st', hu, -, hstack, -⟩ := exec_hides (fun _ _ => rfl) h b n
  rw [hstack rfl] at hu
  exact ⟨_, hu, frame_withHidden_sound t st' n⟩

/-- Settles O35: with the same timer and sound events, the two runs end with the same. -/
theorem slotsAboveSpAreUnobservable : Obligations.SlotsAboveSpAreUnobservable := by
  unfold Obligations.SlotsAboveSpAreUnobservable
  intro i s t stack hslots h
  obtain ⟨stack', st', hu, hslots', -, hst⟩ := exec_hides hslots h s.st s.soundEvents
  obtain ⟨-, hsound, -⟩ := (effect_of_exec h).unwritten
  rw [hst rfl] at hu
  refine ⟨_, hu, ?_⟩
  rw [← hsound]
  exact frame_withHidden_stack hslots'

end Sys2Proof.Machine
end
